-- ==== Sys2Proof/Word.lean ====
section
/-! DEFINITION. The word types of the machine (R8 of 00_scope.md) and the two width changes of its notation (R10, R11). -/

namespace Sys2Proof

/-- A byte of memory: 8 bits (R50). -/
abbrev Byte := BitVec 8

/-- A general register, an instruction word, a stack slot: 16 bits (R21, R80). -/
abbrev Word := BitVec 16

/-- A byte address, the pc, the sp: 20 bits (R25, R29), so arithmetic on it is mod 2^20 (R51). -/
abbrev Addr := BitVec 20

/-- The index of a general register, R0 to R7 (R21). -/
abbrev RegIx := Fin 8

/-- MEM_SIZE = 2^20 bytes (R8, R50). -/
abbrev memSize : Nat := 1048576

end Sys2Proof
end

