-- ==== Sys2Proof/Syntax.lean ====
section
/-! DEFINITION. The instructions: one constructor per row of spec/opcode_table.json, with the operands R89 and R96 give it. -/

namespace Sys2Proof

/-- One instruction of the vm ISA (R84, R86, R170, R176). Where a row covers several values of the mode or
opcode field, the field's value is an operand; `Instr.WellFormed` says which values belong to the row. -/
inductive Instr where
  | halt
  | nop
  | mov (dst src : RegIx)
  | movi (dst : RegIx) (imm9 : BitVec 9)
  | cmp (dst src : RegIx)
  | jmp (dst : RegIx)
  | jz (dst : RegIx)
  | jnz (dst : RegIx)
  | push (dst : RegIx)
  | pop (dst : RegIx)
  | call (dst : RegIx)
  | stdoutStr
  | stdoutInt (src : RegIx)
  | stdoutPstr (src : RegIx)
  | stdoutChr (src : RegIx)
  | stdoutRsvd (mode : BitVec 3)
  | stdinLine (src : RegIx)
  | stdinInt (src : RegIx)
  /-- STDIN.INT.ALT, the row 0xC400: modes 2 and 3. -/
  | stdinIntAlt23 (mode : BitVec 3) (src : RegIx)
  /-- STDIN.INT.ALT, the row 0xC800: modes 4 to 7. -/
  | stdinIntAlt47 (mode : BitVec 3) (src : RegIx)
  | ret
  | load (reg1 reg2 : RegIx)
  | store (reg1 reg2 : RegIx)
  | add (reg1 reg2 : RegIx)
  | sub (reg1 reg2 : RegIx)
  | and (reg1 reg2 : RegIx)
  | or (reg1 reg2 : RegIx)
  | xor (reg1 reg2 : RegIx)
  /-- A word of op 0xE or 0xF; the op is what the halt reports (R115). -/
  | illegal (op : BitVec 4)
deriving DecidableEq, Repr

end Sys2Proof
end

