-- ==== Sys2Proof/WellFormed.lean ====
section
/-! DEFINITION. Which terms of Instr are instructions: the mode and opcode values of each row (R91, R175, R176, R178). -/

namespace Sys2Proof

/-- The term stands for words of its row: STDOUT.RSVD has mode 4 to 7 (R175), the two STDIN.INT.ALT rows
have mode 2 to 3 and 4 to 7 (R176), an illegal word has op 0xE or 0xF (R91). Every register index and every
imm9 is good (R87, R88). -/
def Instr.WellFormed : Instr → Bool
  | .halt => true
  | .nop => true
  | .mov _ _ => true
  | .movi _ _ => true
  | .cmp _ _ => true
  | .jmp _ => true
  | .jz _ => true
  | .jnz _ => true
  | .push _ => true
  | .pop _ => true
  | .call _ => true
  | .stdoutStr => true
  | .stdoutInt _ => true
  | .stdoutPstr _ => true
  | .stdoutChr _ => true
  | .stdoutRsvd mode => decide (4 ≤ mode.toNat)
  | .stdinLine _ => true
  | .stdinInt _ => true
  | .stdinIntAlt23 mode _ => decide (2 ≤ mode.toNat) && decide (mode.toNat ≤ 3)
  | .stdinIntAlt47 mode _ => decide (4 ≤ mode.toNat)
  | .ret => true
  | .load _ _ => true
  | .store _ _ => true
  | .add _ _ => true
  | .sub _ _ => true
  | .and _ _ => true
  | .or _ _ => true
  | .xor _ _ => true
  | .illegal op => decide (14 ≤ op.toNat)

end Sys2Proof
end

