-- ==== Sys2Proof/Decode.lean ====
section
/-! DEFINITION. The 16-bit instruction codec: fields (R81), decoder (R84, R86), encoder (R95), and the opcode table's match and mask. -/

namespace Sys2Proof

/-- The 3-bit field of `w` whose lowest bit is bit `lo`, as a register index (R81, R88). -/
def regField (w : Word) (lo : Nat) : RegIx := (w.extractLsb' lo 3).toFin

/-- dst = w[11:9] (R81). -/
def dstField (w : Word) : RegIx := regField w 9

/-- src = w[8:6] (R81). -/
def srcField (w : Word) : RegIx := regField w 6

/-- reg1 = w[8:6], Format X (R81, R85). -/
def reg1Field (w : Word) : RegIx := regField w 6

/-- reg2 = w[5:3], Format X (R81, R85). -/
def reg2Field (w : Word) : RegIx := regField w 3

/-- imm9 = w[8:0] (R81, R83). -/
def imm9Field (w : Word) : BitVec 9 := w.extractLsb' 0 9

/-- op = w[15:12] (R81). -/
def opField (w : Word) : BitVec 4 := w.extractLsb' 12 4

/-- The mode selector of STDOUT and STDIN: the dst field (R170, R176). -/
def modeField (w : Word) : BitVec 3 := w.extractLsb' 9 3

/-- The eight modes of op 0xB (R170). -/
def decodeStdout (w : Word) : Instr :=
  match w.getLsbD 11, w.getLsbD 10, w.getLsbD 9 with
  | false, false, false => .stdoutStr
  | false, false, true => .stdoutInt (srcField w)
  | false, true, false => .stdoutPstr (srcField w)
  | false, true, true => .stdoutChr (srcField w)
  | true, _, _ => .stdoutRsvd (modeField w)

/-- The eight modes of op 0xC (R176). -/
def decodeStdin (w : Word) : Instr :=
  match w.getLsbD 11, w.getLsbD 10, w.getLsbD 9 with
  | false, false, false => .stdinLine (srcField w)
  | false, false, true => .stdinInt (srcField w)
  | false, true, _ => .stdinIntAlt23 (modeField w) (srcField w)
  | true, _, _ => .stdinIntAlt47 (modeField w) (srcField w)

/-- The extended sub-dispatch of op 0xD, by ext = w[11:9] (R86, R190). All eight codes are assigned, so the
arm of R199 has no word (R92, C4; log 19). -/
def decodeExt (w : Word) : Instr :=
  match w.getLsbD 11, w.getLsbD 10, w.getLsbD 9 with
  | false, false, false => .ret
  | false, false, true => .load (reg1Field w) (reg2Field w)
  | false, true, false => .store (reg1Field w) (reg2Field w)
  | false, true, true => .add (reg1Field w) (reg2Field w)
  | true, false, false => .sub (reg1Field w) (reg2Field w)
  | true, false, true => .and (reg1Field w) (reg2Field w)
  | true, true, false => .or (reg1Field w) (reg2Field w)
  | true, true, true => .xor (reg1Field w) (reg2Field w)

/-- The instruction a word stands for, by its top four bits (R84, R112). Every word has one: the codec has no
failure mode (R81). Bits that R89 marks x are not read (R90, log 12). -/
def decodeWord (w : Word) : Instr :=
  match w.getLsbD 15, w.getLsbD 14, w.getLsbD 13, w.getLsbD 12 with
  | false, false, false, false => .halt
  | false, false, false, true => .nop
  | false, false, true, false => .mov (dstField w) (srcField w)
  | false, false, true, true => .movi (dstField w) (imm9Field w)
  | false, true, false, false => .cmp (dstField w) (srcField w)
  | false, true, false, true => .jmp (dstField w)
  | false, true, true, false => .jz (dstField w)
  | false, true, true, true => .jnz (dstField w)
  | true, false, false, false => .push (dstField w)
  | true, false, false, true => .pop (dstField w)
  | true, false, true, false => .call (dstField w)
  | true, false, true, true => decodeStdout w
  | true, true, false, false => decodeStdin w
  | true, true, false, true => decodeExt w
  | true, true, true, _ => .illegal (opField w)

/-- Why bytes do not decode: the one reason is that fewer than two are left (R80). -/
inductive DecodeError where
  | truncated
deriving DecidableEq, Repr

/-- The first instruction of a byte sequence and the bytes after it: two bytes, the low byte first (R58, R80). -/
def decode : List Byte → Except DecodeError (Instr × List Byte)
  | lo :: hi :: rest => .ok (decodeWord (hi ++ lo), rest)
  | _ => .error .truncated

/-- A register index as a 3-bit field. -/
def regBits (r : RegIx) : BitVec 3 := BitVec.ofFin r

/-- Format A with a 3-bit first field: op | dst | src | 000000 (R82, R95). -/
def encA (op : BitVec 4) (dst src : BitVec 3) : Word := op ++ dst ++ src ++ 0#6

/-- Format B: op | reg | imm9 (R83, R95). -/
def encB (op : BitVec 4) (dst : BitVec 3) (imm9 : BitVec 9) : Word := op ++ dst ++ imm9

/-- Format X: 1101 | ext | reg1 | reg2 | 000 (R85, R95). -/
def encX (ext reg1 reg2 : BitVec 3) : Word := 0xD#4 ++ ext ++ reg1 ++ reg2 ++ 0#3

/-- The canonical word of an instruction, every unused bit 0 (R90, R95). -/
def encodeWord : Instr → Word
  | .halt => encA 0x0 0 0
  | .nop => encA 0x1 0 0
  | .mov dst src => encA 0x2 (regBits dst) (regBits src)
  | .movi dst imm9 => encB 0x3 (regBits dst) imm9
  | .cmp dst src => encA 0x4 (regBits dst) (regBits src)
  | .jmp dst => encA 0x5 (regBits dst) 0
  | .jz dst => encA 0x6 (regBits dst) 0
  | .jnz dst => encA 0x7 (regBits dst) 0
  | .push dst => encA 0x8 (regBits dst) 0
  | .pop dst => encA 0x9 (regBits dst) 0
  | .call dst => encA 0xA (regBits dst) 0
  | .stdoutStr => encA 0xB 0 0
  | .stdoutInt src => encA 0xB 1 (regBits src)
  | .stdoutPstr src => encA 0xB 2 (regBits src)
  | .stdoutChr src => encA 0xB 3 (regBits src)
  | .stdoutRsvd mode => encA 0xB mode 0
  | .stdinLine src => encA 0xC 0 (regBits src)
  | .stdinInt src => encA 0xC 1 (regBits src)
  | .stdinIntAlt23 mode src => encA 0xC mode (regBits src)
  | .stdinIntAlt47 mode src => encA 0xC mode (regBits src)
  | .ret => encX 0 0 0
  | .load reg1 reg2 => encX 1 (regBits reg1) (regBits reg2)
  | .store reg1 reg2 => encX 2 (regBits reg1) (regBits reg2)
  | .add reg1 reg2 => encX 3 (regBits reg1) (regBits reg2)
  | .sub reg1 reg2 => encX 4 (regBits reg1) (regBits reg2)
  | .and reg1 reg2 => encX 5 (regBits reg1) (regBits reg2)
  | .or reg1 reg2 => encX 6 (regBits reg1) (regBits reg2)
  | .xor reg1 reg2 => encX 7 (regBits reg1) (regBits reg2)
  | .illegal op => encA op 0 0

/-- The two bytes of an instruction as memory holds them, the low byte first (R58). -/
def encode (i : Instr) : List Byte :=
  [(encodeWord i).extractLsb' 0 8, (encodeWord i).extractLsb' 8 8]

/-- A row of the opcode table: the bits of `mask` are fixed at their values in `value` (the table's match). -/
structure TableRow where
  mask : Word
  value : Word
deriving DecidableEq, Repr

/-- The row's match and mask of spec/opcode_table.json. -/
def Instr.row : Instr → TableRow
  | .halt => ⟨0xF000, 0x0000⟩
  | .nop => ⟨0xF000, 0x1000⟩
  | .mov _ _ => ⟨0xF000, 0x2000⟩
  | .movi _ _ => ⟨0xF000, 0x3000⟩
  | .cmp _ _ => ⟨0xF000, 0x4000⟩
  | .jmp _ => ⟨0xF000, 0x5000⟩
  | .jz _ => ⟨0xF000, 0x6000⟩
  | .jnz _ => ⟨0xF000, 0x7000⟩
  | .push _ => ⟨0xF000, 0x8000⟩
  | .pop _ => ⟨0xF000, 0x9000⟩
  | .call _ => ⟨0xF000, 0xA000⟩
  | .stdoutStr => ⟨0xFE00, 0xB000⟩
  | .stdoutInt _ => ⟨0xFE00, 0xB200⟩
  | .stdoutPstr _ => ⟨0xFE00, 0xB400⟩
  | .stdoutChr _ => ⟨0xFE00, 0xB600⟩
  | .stdoutRsvd _ => ⟨0xF800, 0xB800⟩
  | .stdinLine _ => ⟨0xFE00, 0xC000⟩
  | .stdinInt _ => ⟨0xFE00, 0xC200⟩
  | .stdinIntAlt23 _ _ => ⟨0xFC00, 0xC400⟩
  | .stdinIntAlt47 _ _ => ⟨0xF800, 0xC800⟩
  | .ret => ⟨0xFE00, 0xD000⟩
  | .load _ _ => ⟨0xFE00, 0xD200⟩
  | .store _ _ => ⟨0xFE00, 0xD400⟩
  | .add _ _ => ⟨0xFE00, 0xD600⟩
  | .sub _ _ => ⟨0xFE00, 0xD800⟩
  | .and _ _ => ⟨0xFE00, 0xDA00⟩
  | .or _ _ => ⟨0xFE00, 0xDC00⟩
  | .xor _ _ => ⟨0xFE00, 0xDE00⟩
  | .illegal _ => ⟨0xE000, 0xE000⟩

/-- The bits of the word that the instruction reads: the bits R89 does not mark x, with the mode or op bits
that select an operand value of the row (R96) counted as read. -/
def Instr.readMask : Instr → Word
  | .halt => 0xF000
  | .nop => 0xF000
  | .mov _ _ => 0xFFC0
  | .movi _ _ => 0xFFFF
  | .cmp _ _ => 0xFFC0
  | .jmp _ => 0xFE00
  | .jz _ => 0xFE00
  | .jnz _ => 0xFE00
  | .push _ => 0xFE00
  | .pop _ => 0xFE00
  | .call _ => 0xFE00
  | .stdoutStr => 0xFE00
  | .stdoutInt _ => 0xFFC0
  | .stdoutPstr _ => 0xFFC0
  | .stdoutChr _ => 0xFFC0
  | .stdoutRsvd _ => 0xFE00
  | .stdinLine _ => 0xFFC0
  | .stdinInt _ => 0xFFC0
  | .stdinIntAlt23 _ _ => 0xFFC0
  | .stdinIntAlt47 _ _ => 0xFFC0
  | .ret => 0xFE00
  | .load _ _ => 0xFFF8
  | .store _ _ => 0xFFF8
  | .add _ _ => 0xFFF8
  | .sub _ _ => 0xFFF8
  | .and _ _ => 0xFFF8
  | .or _ _ => 0xFFF8
  | .xor _ _ => 0xFFF8
  | .illegal _ => 0xF000

/-- The `nbits` bits of `w`, bit 0 first, as the two bytes of an instruction word: bits above `nbits` are 0. -/
def tableWordBytes (nbits w : Nat) : List Byte :=
  [BitVec.ofNat 8 (w % 2 ^ nbits), BitVec.ofNat 8 (w % 2 ^ nbits / 256)]

/-- The instruction the decoder reads from a word given in the opcode table's numbering (R9): its low byte
stands at the lower address (R58). -/
def decodeTableWord (nbits w : Nat) : Option Instr :=
  match decode (tableWordBytes nbits w) with
  | .ok (i, _) => some i
  | .error _ => none

end Sys2Proof
end

