-- ==== Sys2Proof/Machine/Types.lean ====
section
/-! DEFINITION. The data types that State and Config are made of: flags, halt latches, the console port's vocabulary, the diagnostic dump. -/

namespace Sys2Proof.Machine

/-- The four condition flags (R31). -/
structure Flags where
  z : Bool
  s : Bool
  c : Bool
  v : Bool
deriving DecidableEq, Repr

/-- The halt causes of R211. -/
inductive HaltCause where
  | none
  | haltInstr
  | illegalOpcode
  | illegalExt
deriving DecidableEq, Repr

/-- The halt latches of R36: the diagnostic of the last halt. -/
structure HaltLatches where
  cause : HaltCause
  op : BitVec 4
  addr : Addr
deriving DecidableEq, Repr

/-- The two kinds of request at the console input port (R182). -/
inductive ConKind where
  | line
  | int
deriving DecidableEq, Repr

/-- What crosses the console port (R181, R182): the three output events, and an input request. -/
inductive ConEvent where
  | outStr (bytes : List Byte)
  | outInt (n : Int)
  | outChar (b : Byte)
  | conIn (kind : ConKind)
deriving DecidableEq, Repr

/-- The answer to an integer request (R182). -/
inductive IntAnswer where
  | int (n : Int)
  | malformed
deriving DecidableEq, Repr, Inhabited

/-- What the console answers to its next request, whichever of the two kinds the request is (R182). -/
structure ConAnswer where
  line : List Byte
  int : IntAnswer
deriving DecidableEq, Repr, Inhabited

/-- What the console does once the answers it holds ready are used up: it draws from the input oracle
under no law (R182), it is at end of input (D13), or it never answers (R182, R226). -/
inductive ConRest where
  | oracle
  | endOfInput
  | silent
deriving DecidableEq, Repr

/-- The console as the core sees it (R39): its unread input, as the answers it holds ready, oldest first,
and its history, oldest first. `rest` and `draws` are the model's own (log 3, log 4). -/
structure Console where
  pending : List ConAnswer
  rest : ConRest
  draws : Nat
  log : List ConEvent
deriving DecidableEq, Repr

/-- The content of the diagnostic dump (R221). -/
structure Dump where
  pc : Addr
  sp : Addr
  flags : Flags
  regs : Vector Word 8
  halted : Bool
  latches : HaltLatches
deriving DecidableEq, Repr

end Sys2Proof.Machine
end

