-- ==== Sys2Proof/Config.lean ====
section
/-! DEFINITION. What the spec leaves to an implementation: the reset parameters, and the free values, constants with no body. -/

namespace Sys2Proof.Config

open Sys2Proof.Machine

/-- REG_RESET (R40, R243): OPEN in the spec. DESIGN CHOICE, unsafe: zero (log 1). -/
def regReset : Vector Word 8 := Vector.replicate 8 0

/-- SR_RESET (R40, R37): OPEN in the spec. DESIGN CHOICE, unsafe: zero (log 2). -/
def srReset : Vector Word 4 := Vector.replicate 4 0

/-- The console before the first step: nothing sent, nothing held ready, every request answered by the
oracle. DESIGN CHOICE (log 3). -/
def consoleStart : Console := { pending := [], rest := .oracle, draws := 0, log := [] }

/-- The input oracle of R182: the n-th free answer, under no law. A free value (log 4). -/
opaque conOracle : Nat → ConAnswer

/-- RENDER (R181, D24): the terminal bytes of an output event, the console's own. A free value (log 21). -/
opaque render : ConEvent → List Byte

/-- DUMP_FORMAT (R221, D28): the text of the diagnostic dump. A free value (log 21). -/
opaque dumpFormat : Dump → List Byte

end Sys2Proof.Config
end

