-- ==== Sys2Proof/Machine/State.lean ====
section
/-! DEFINITION. The architectural state (R20), the ways a step can end without a next state, and the state after reset (R40). -/

namespace Sys2Proof.Machine

/-- Memory: the bytes that are not 0x00, as cells in strictly rising address order. An unlisted address reads
0x00, the value the spec gives every byte at reset (R40, R50). `Memory.wf` says the form holds. -/
abbrev Memory := List Host.Cell

/-- The architectural state of R20, and the console as the core sees it (R39). -/
structure State where
  regs : Vector Word 8
  pc : Addr
  sp : Addr
  flags : Flags
  halted : Bool
  latches : HaltLatches
  sr : Vector Word 4
  mem : Memory
  console : Console
deriving DecidableEq, Repr

/-- The steps that never complete. The machine itself has no other fault: its halts are next states (R212). -/
inductive Fault where
  /-- Raised by STDOUT modes 0 and 2 when no byte of memory is 0x00: the scan of R180 never ends (D15).
  Safe: the step has no next state here and none on the machine (log 5). -/
  | scanNeverEnds
  /-- Raised by STDIN when the console never answers its request (R182, R226). Safe: the step has no next
  state here and none on the machine (log 6). -/
  | stdinUnanswered
deriving DecidableEq, Repr

/-- No instruction is refused: the constructor is the host's and no arm of exec uses it. -/
inductive Refusal where
  /-- An instruction that has no meaning yet. Safe. -/
  | notModelled (mnemonic : String)
deriving DecidableEq, Repr

/-- The reset values of R40, with the OPEN parameters REG_RESET and SR_RESET as arguments. The console is not
part of the core (R39): reset leaves it as it is (log 8). -/
def State.resetWith (regReset : Vector Word 8) (srReset : Vector Word 4) (console : Console) : State where
  regs := regReset
  pc := 0x00000
  sp := 0xFFFFE
  flags := { z := false, s := false, c := false, v := false }
  halted := false
  latches := { cause := .none, op := 0, addr := 0 }
  sr := srReset
  mem := []
  console := console

/-- The machine right after reset (R40, R240), REG_RESET and SR_RESET at the values of log 1 and log 2. -/
def State.reset : State := State.resetWith Config.regReset Config.srReset Config.consoleStart

end Sys2Proof.Machine
end

