-- ==== Sys2Proof/Machine/Flags.lean ====
section
/-! DEFINITION. The ALU and every flag computation (R119 to R124), and the flags byte (R34). -/

namespace Sys2Proof.Machine

/-- ZS(r): Z and S from a 16-bit result; C and V stay (R120). -/
def zs (r : Word) (f : Flags) : Flags := { f with z := decide (r = 0), s := r.getLsbD 15 }

/-- AddALU(a, b): the sum truncated to 16 bits, and the flags (R121). -/
def addAlu (a b : Word) (f : Flags) : Word × Flags :=
  let sum := a.toNat + b.toNat
  let r := BitVec.ofNat 16 sum
  (r, zs r { f with
    c := decide (sum > 0xFFFF)
    v := (a.getLsbD 15 == b.getLsbD 15) && (r.getLsbD 15 != a.getLsbD 15) })

/-- SubALU(a, b, writeV): the difference, and the flags; V only when `writeV` holds (R122). -/
def subAlu (a b : Word) (writeV : Bool) (f : Flags) : Word × Flags :=
  let r := BitVec.ofNat 16 (a.toNat + 0x10000 - b.toNat)
  (r, zs r { f with
    c := decide (a.toNat < b.toNat)
    v := if writeV then (a.getLsbD 15 != b.getLsbD 15) && (r.getLsbD 15 != a.getLsbD 15) else f.v })

/-- The AND function's result; its flags are `zs` (R123). -/
def andAlu (a b : Word) : Word := a &&& b

/-- The OR function's result; its flags are `zs` (R123). -/
def orAlu (a b : Word) : Word := a ||| b

/-- The XOR function's result; its flags are `zs` (R123). -/
def xorAlu (a b : Word) : Word := a ^^^ b

/-- FLAGS = 0000 V C S Z (R34, the spec's decision D3; log 10). -/
def Flags.toByte (f : Flags) : Byte :=
  0#4 ++ BitVec.ofBool f.v ++ BitVec.ofBool f.c ++ BitVec.ofBool f.s ++ BitVec.ofBool f.z

/-- The flags a saved flags byte stands for (R34). -/
def Flags.ofByte (b : Byte) : Flags :=
  { z := b.getLsbD 0, s := b.getLsbD 1, c := b.getLsbD 2, v := b.getLsbD 3 }

/-- The numeric codes of the halt causes (R36, R211, D18). -/
def HaltCause.code : HaltCause → Nat
  | .none => 0
  | .haltInstr => 1
  | .illegalOpcode => 2
  | .illegalExt => 3

end Sys2Proof.Machine
end

