-- ==== Sys2Proof/Machine/Memory.lean ====
section
/-! DEFINITION. The memory primitives of 20_memory.md over the canonical list of cells. -/

namespace Sys2Proof.Machine

/-- The byte at a key of the list; an unlisted one reads 0x00 (R40). -/
def Memory.lookup : Memory → Nat → Byte
  | [], _ => 0
  | (k, b) :: rest, a => if k = a then b else Memory.lookup rest a

/-- Sets the byte at a key, keeping the canonical form: writing 0x00 removes the cell. -/
def Memory.insert : Memory → Nat → Byte → Memory
  | [], a, v => if v = 0 then [] else [(a, v)]
  | (k, b) :: rest, a, v =>
    if a < k then (if v = 0 then (k, b) :: rest else (a, v) :: (k, b) :: rest)
    else if a = k then (if v = 0 then rest else (a, v) :: rest)
    else (k, b) :: Memory.insert rest a v

/-- The cells from a lower bound on: strictly rising, inside the address space, none equal to 0x00. -/
def Memory.wfFrom (lo : Nat) : Memory → Bool
  | [] => true
  | (k, b) :: rest => decide (lo ≤ k) && decide (k < memSize) && decide (b ≠ 0) && Memory.wfFrom (k + 1) rest

/-- The canonical form, so that equal memories are equal data. -/
def Memory.wf (m : Memory) : Bool := Memory.wfFrom 0 m

/-- MemRead(a, 1) (R53). The address is 20 bits wide: it is reduced already (R51). -/
def Memory.read8 (m : Memory) (a : Addr) : Byte := m.lookup a.toNat

/-- MemWrite(a, 1, b) (R54). -/
def Memory.write8 (m : Memory) (a : Addr) (b : Byte) : Memory := m.insert a.toNat b

/-- MemRead(a, 2), little-endian, the second address reduced on its own (R55). -/
def Memory.read16 (m : Memory) (a : Addr) : Word := m.read8 (a + 1) ++ m.read8 a

/-- MemWrite(a, 2, v), low byte first (R57). -/
def Memory.write16 (m : Memory) (a : Addr) (v : Word) : Memory :=
  (m.write8 a (v.extractLsb' 0 8)).write8 (a + 1) (v.extractLsb' 8 8)

/-- MemRead20(a): three bytes, the third masked to its low 4 bits (R56). Only the host reaches it. -/
def Memory.read20 (m : Memory) (a : Addr) : BitVec 20 :=
  (m.read8 (a + 2)).extractLsb' 0 4 ++ m.read8 (a + 1) ++ m.read8 a

/-- Bytes written one after another from an address up, wrapping mod 2^20 (R67, R177). -/
def Memory.writeBytes : Memory → Addr → List Byte → Memory
  | m, _, [] => m
  | m, a, b :: rest => Memory.writeBytes (m.write8 a b) (a + 1) rest

/-- ScanString (R180) for at most `fuel` bytes: the bytes before the first 0x00 and that 0x00's address. -/
def Memory.scanFor (m : Memory) : Nat → Addr → Option (List Byte × Addr)
  | 0, _ => none
  | fuel + 1, p =>
    if m.read8 p = 0 then some ([], p)
    else match m.scanFor fuel (p + 1) with
      | none => none
      | some (bytes, t) => some (m.read8 p :: bytes, t)

/-- ScanString(a) (R180). 2^20 bytes are all of memory, so `none` says exactly that no byte of memory is 0x00
and the scan never ends (D15, log 5). -/
def Memory.scanString (m : Memory) (a : Addr) : Option (List Byte × Addr) := m.scanFor memSize a

end Sys2Proof.Machine
end

