-- ==== Sys2Proof/Machine/Operands.lean ====
section
/-! DEFINITION. Operand forms: general registers, the sign-extended imm9, register-indirect addresses, signed values. -/

namespace Sys2Proof.Machine

/-- x[i] (R11, R21). No register is hardwired. -/
def State.reg (s : State) (i : RegIx) : Word := s.regs.get i

/-- x[i] <- v (R11). -/
def State.setReg (s : State) (i : RegIx) (v : Word) : State := { s with regs := s.regs.set i.val v i.isLt }

/-- sext_16(imm9) (R11, R87). -/
def sext16 (imm9 : BitVec 9) : Word :=
  if imm9.getLsbD 8 then imm9.setWidth 16 ||| 0xFE00 else imm9.setWidth 16

/-- zext_20(v) (R11). -/
def zext20 (v : Word) : Addr := v.setWidth 20

/-- zext_20(x[i]): the target of a jump or call, and the address of LOAD, STORE, STDOUT 2 and STDIN 0 (R28, R64). -/
def State.regAddr (s : State) (i : RegIx) : Addr := zext20 (s.reg i)

/-- signed16(v): v if v < 0x8000, otherwise v − 0x10000 (R10). -/
def signed16 (v : Word) : Int := if v.toNat < 0x8000 then v.toNat else (v.toNat : Int) - 0x10000

/-- n mod 2^16 of an integer, never negative (R10, R178). -/
def truncate16 (n : Int) : Word := BitVec.ofInt 16 n

/-- The low byte of a register's value, x[i][7:0] (R174). -/
def lowByte (v : Word) : Byte := v.extractLsb' 0 8

end Sys2Proof.Machine
end

