-- ==== Sys2Proof/Machine/Ops.lean ====
section
/-! DEFINITION. The shared operations: field updates, fetch, the halt, the stack, the console port. -/

namespace Sys2Proof.Machine

/-- pc <- t (R11, R25). -/
def State.setPc (s : State) (t : Addr) : State := { s with pc := t }

/-- sp <- t (R11, R29). -/
def State.setSp (s : State) (t : Addr) : State := { s with sp := t }

/-- Writes the four flags (R31). -/
def State.setFlags (s : State) (f : Flags) : State := { s with flags := f }

/-- Replaces memory. -/
def State.setMem (s : State) (m : Memory) : State := { s with mem := m }

/-- Replaces what the core sees of the console. -/
def State.setConsole (s : State) (c : Console) : State := { s with console := c }

/-- x[i] <- r, then ZS(r): the common end of the instructions that store a result and set Z and S only (R120). -/
def State.writeResult (s : State) (i : RegIx) (r : Word) : State := (s.setReg i r).setFlags (zs r s.flags)

/-- Stores an ALU result that comes with all its flags (R121, R122). -/
def State.writeAlu (s : State) (i : RegIx) (rf : Word × Flags) : State := (s.setReg i rf.1).setFlags rf.2

/-- The word at the pc, MemRead(pc, 2) (R58, R111). -/
def State.fetchWord (s : State) : Word := s.mem.read16 s.pc

/-- The instruction at the pc (R110). -/
def State.fetchInstr (s : State) : Instr := decodeWord s.fetchWord

/-- pc <- A + 2, before any instruction's semantics run (R111). -/
def State.advance (s : State) : State := s.setPc (s.pc + 2)

/-- What a step does on a halted core: nothing, no fetch (R116, D27; log 17). -/
def State.haltedStep (s : State) : State := s

/-- A, the address the running instruction was fetched from. A meaning runs after the fetch, with
pc = A + 2 mod 2^20 (R12, R111), so A = pc − 2 (log 20). -/
def State.fetchAddr (s : State) : Addr := s.pc - 2

/-- raise Halt(cause, op, addr = A): taking the machine's only exception (R212). It sets halted and the three
latches and changes nothing else: no mode, no vector, no saved state (R216). There is no return from it but
reset (R217). -/
def State.raiseHalt (s : State) (cause : HaltCause) (op : BitVec 4) : State :=
  { s with halted := true, latches := { cause := cause, op := op, addr := s.fetchAddr } }

/-- The halt of an unassigned extended opcode (R199). No word reaches it (R92, C4; log 19). -/
def State.raiseIllegalExt (s : State) (ext : BitVec 3) : State := s.raiseHalt .illegalExt (ext.setWidth 4)

/-- Push(v) (R160). -/
def State.push (s : State) (v : Word) : State := (s.setSp (s.sp - 2)).setMem (s.mem.write16 (s.sp - 2) v)

/-- The value Pop() returns (R161). -/
def State.top (s : State) : Word := s.mem.read16 s.sp

/-- What Pop() leaves: sp + 2, memory as it was (R161). -/
def State.drop (s : State) : State := s.setSp (s.sp + 2)

/-- The low word of a return address, ret[15:0] (R164). -/
def retLow (ret : Addr) : Word := ret.extractLsb' 0 16

/-- The high word of a return address, zext_16(ret[19:16]) (R164). -/
def retHigh (ret : Addr) : Word := (ret.extractLsb' 16 4).setWidth 16

/-- ((hi & 0xF) << 16) | lo (R165). -/
def retJoin (hi lo : Word) : Addr := hi.extractLsb' 0 4 ++ lo

/-- t + 1, rounded up to an even address: the pc past an inline string whose terminator is at t (R171, D16). -/
def pastString (t : Addr) : Addr := if (t + 1).getLsbD 0 then t + 1 + 1 else t + 1

/-- ConOut(event): one event on the console output port (R181). -/
def State.conOut (s : State) (e : ConEvent) : State :=
  s.setConsole { s.console with log := s.console.log ++ [e] }

/-- The console's next answer and the console after it: an answer it holds ready, else as `rest` says. `none`:
it never answers (R182). -/
def Console.answer (c : Console) : Option (ConAnswer × Console) :=
  match c.pending with
  | a :: rest => some (a, { c with pending := rest })
  | [] =>
    match c.rest with
    | .oracle => some (Config.conOracle c.draws, { c with draws := c.draws + 1 })
    | .endOfInput => some ({ line := [], int := .malformed }, c)
    | .silent => none

/-- ConIn(kind): one request at the console input port, recorded in its history, and the answer (R182). -/
def State.conIn (s : State) (kind : ConKind) : Option (ConAnswer × State) :=
  match s.console.answer with
  | none => none
  | some (a, c) => some (a, (s.setConsole c).conOut (.conIn kind))

/-- The register after a numeric read: n mod 2^16, or its old value on malformed input (R178). -/
def IntAnswer.reg : IntAnswer → Word → Word
  | .int n, _ => truncate16 n
  | .malformed, old => old

/-- The flags after a numeric read: ZS of the number, or the old flags on malformed input (R178). -/
def IntAnswer.flags : IntAnswer → Flags → Flags
  | .int n, f => zs (truncate16 n) f
  | .malformed, f => f

/-- A numeric read: the request, then x[i] <- n mod 2^16 and ZS, or nothing on malformed input (R178). -/
def State.readInt (s : State) (i : RegIx) : Host.Outcome State Fault Refusal :=
  match s.conIn .int with
  | none => .fault .stdinUnanswered
  | some (ans, s1) => .next ((s1.setReg i (ans.int.reg (s.reg i))).setFlags (ans.int.flags s.flags))

/-- Emits the string at an address; the address of its terminator goes to `k` (R180). -/
def State.emitString (s : State) (a : Addr) (k : Addr → State → State) : Host.Outcome State Fault Refusal :=
  match s.mem.scanString a with
  | none => .fault .scanNeverEnds
  | some (bytes, t) => .next (k t (s.conOut (.outStr bytes)))

/-- The instruction word of `nbits` bits placed at the pc of a running core, as the loader writes it
(R58, R244; log 18). -/
def State.placeWord (s : State) (nbits w : Nat) : State :=
  { s with mem := s.mem.writeBytes s.pc (tableWordBytes nbits w), halted := false }

end Sys2Proof.Machine
end

