-- ==== Sys2Proof/Machine/ConsoleIO.lean ====
section
/-! DEFINITION. STDOUT and STDIN, every mode (44_console_io.md). -/

namespace Sys2Proof.Machine

/-- STDOUT 0 (R171): the inline string at pc = A + 2; the pc goes past it, rounded up to even. -/
def execStdoutStr (s : State) : Host.Outcome State Fault Refusal :=
  s.emitString s.pc (fun t u => u.setPc (pastString t))

/-- STDOUT 1,src (R172). -/
def execStdoutInt (src : RegIx) (s : State) : Host.Outcome State Fault Refusal :=
  .next (s.conOut (.outInt (signed16 (s.reg src))))

/-- STDOUT 2,src (R173). -/
def execStdoutPstr (src : RegIx) (s : State) : Host.Outcome State Fault Refusal :=
  s.emitString (s.regAddr src) (fun _ u => u)

/-- STDOUT 3,src (R174). -/
def execStdoutChr (src : RegIx) (s : State) : Host.Outcome State Fault Refusal :=
  .next (s.conOut (.outChar (lowByte (s.reg src))))

/-- STDOUT 4 to 7 (R175, the spec's decision D11; log 14): nothing besides the fetch's pc advance. -/
def execStdoutRsvd (_mode : BitVec 3) (s : State) : Host.Outcome State Fault Refusal := .next s

/-- STDIN 0,src (R177): the line, then 0x00, from zext_20(x[src]) up. -/
def execStdinLine (src : RegIx) (s : State) : Host.Outcome State Fault Refusal :=
  match s.conIn .line with
  | none => .fault .stdinUnanswered
  | some (ans, s1) => .next (s1.setMem (s1.mem.writeBytes (s.regAddr src) (ans.line ++ [0])))

/-- STDIN 1,src (R178). -/
def execStdinInt (src : RegIx) (s : State) : Host.Outcome State Fault Refusal := s.readInt src

/-- STDIN 2 or 3,src (R178, the spec's decision D12; log 14): as mode 1. -/
def execStdinIntAlt23 (_mode : BitVec 3) (src : RegIx) (s : State) : Host.Outcome State Fault Refusal :=
  s.readInt src

/-- STDIN 4 to 7,src (R178, the spec's decision D12; log 14): as mode 1. -/
def execStdinIntAlt47 (_mode : BitVec 3) (src : RegIx) (s : State) : Host.Outcome State Fault Refusal :=
  s.readInt src

end Sys2Proof.Machine
end

