-- ==== Sys2Proof/Machine/Extended.lean ====
section
/-! DEFINITION. LOAD, STORE, ADD, SUB, AND, OR and XOR (45_extended.md); the operands are reg1 and reg2 (R191). -/

namespace Sys2Proof.Machine

/-- LOAD reg1,reg2 (R192). -/
def execLoad (reg1 reg2 : RegIx) (s : State) : Host.Outcome State Fault Refusal :=
  .next (s.writeResult reg1 (s.mem.read16 (s.regAddr reg2)))

/-- STORE reg1,reg2 (R193). -/
def execStore (reg1 reg2 : RegIx) (s : State) : Host.Outcome State Fault Refusal :=
  .next (s.setMem (s.mem.write16 (s.regAddr reg1) (s.reg reg2)))

/-- ADD reg1,reg2 (R194). -/
def execAdd (reg1 reg2 : RegIx) (s : State) : Host.Outcome State Fault Refusal :=
  .next (s.writeAlu reg1 (addAlu (s.reg reg1) (s.reg reg2) s.flags))

/-- SUB reg1,reg2 (R195). -/
def execSub (reg1 reg2 : RegIx) (s : State) : Host.Outcome State Fault Refusal :=
  .next (s.writeAlu reg1 (subAlu (s.reg reg1) (s.reg reg2) true s.flags))

/-- AND reg1,reg2 (R196). -/
def execAnd (reg1 reg2 : RegIx) (s : State) : Host.Outcome State Fault Refusal :=
  .next (s.writeResult reg1 (andAlu (s.reg reg1) (s.reg reg2)))

/-- OR reg1,reg2 (R197). -/
def execOr (reg1 reg2 : RegIx) (s : State) : Host.Outcome State Fault Refusal :=
  .next (s.writeResult reg1 (orAlu (s.reg reg1) (s.reg reg2)))

/-- XOR reg1,reg2 (R198). -/
def execXor (reg1 reg2 : RegIx) (s : State) : Host.Outcome State Fault Refusal :=
  .next (s.writeResult reg1 (xorAlu (s.reg reg1) (s.reg reg2)))

end Sys2Proof.Machine
end

