-- ==== Sys2Proof/Machine/Jumps.lean ====
section
/-! DEFINITION. JMP, JZ and JNZ (42_jumps.md). -/

namespace Sys2Proof.Machine

/-- JMP dst (R150). -/
def execJmp (dst : RegIx) (s : State) : Host.Outcome State Fault Refusal := .next (s.setPc (s.regAddr dst))

/-- JZ dst (R151). -/
def execJz (dst : RegIx) (s : State) : Host.Outcome State Fault Refusal :=
  .next (if s.flags.z then s.setPc (s.regAddr dst) else s)

/-- JNZ dst (R152). -/
def execJnz (dst : RegIx) (s : State) : Host.Outcome State Fault Refusal :=
  .next (if s.flags.z then s else s.setPc (s.regAddr dst))

end Sys2Proof.Machine
end

