-- ==== Sys2Proof/Machine/Moves.lean ====
section
/-! DEFINITION. MOV, MOVI and CMP (41_moves_compare.md). -/

namespace Sys2Proof.Machine

/-- MOV dst,src (R140). -/
def execMov (dst src : RegIx) (s : State) : Host.Outcome State Fault Refusal :=
  .next (s.writeResult dst (s.reg src))

/-- MOVI dst,imm9 (R141). -/
def execMovi (dst : RegIx) (imm9 : BitVec 9) (s : State) : Host.Outcome State Fault Refusal :=
  .next (s.writeResult dst (sext16 imm9))

/-- CMP dst,src (R142): the flags of the difference, V excepted (D6; log 11); no register is written (R124). -/
def execCmp (dst src : RegIx) (s : State) : Host.Outcome State Fault Refusal :=
  .next (s.setFlags (subAlu (s.reg dst) (s.reg src) false s.flags).2)

end Sys2Proof.Machine
end

