-- ==== Sys2Proof/Machine/Stack.lean ====
section
/-! DEFINITION. PUSH, POP, CALL and RET (43_stack_calls.md). -/

namespace Sys2Proof.Machine

/-- PUSH dst (R162). -/
def execPush (dst : RegIx) (s : State) : Host.Outcome State Fault Refusal := .next (s.push (s.reg dst))

/-- POP dst (R163). -/
def execPop (dst : RegIx) (s : State) : Host.Outcome State Fault Refusal :=
  .next (s.drop.writeResult dst s.top)

/-- CALL dst (R164): the low word of the return address first, then the high word. -/
def execCall (dst : RegIx) (s : State) : Host.Outcome State Fault Refusal :=
  .next (((s.push (retLow s.pc)).push (retHigh s.pc)).setPc (s.regAddr dst))

/-- RET (R165): the high word is popped first (C1). -/
def execRet (s : State) : Host.Outcome State Fault Refusal :=
  .next (s.drop.drop.setPc (retJoin s.top s.drop.top))

end Sys2Proof.Machine
end

