-- ==== Sys2Proof/Machine/System.lean ====
section
/-! DEFINITION. HALT, NOP and the illegal opcodes (40_engine.md). Every meaning runs after the fetch, with pc = A + 2 (R12). -/

namespace Sys2Proof.Machine

/-- HALT (R113). -/
def execHalt (s : State) : Host.Outcome State Fault Refusal := .next (s.raiseHalt .haltInstr 0x0)

/-- NOP (R114): the fetch's pc advance is its only change. -/
def execNop (s : State) : Host.Outcome State Fault Refusal := .next s

/-- Op 0xE or 0xF (R115): the halt that reports the op. -/
def execIllegal (op : BitVec 4) (s : State) : Host.Outcome State Fault Refusal :=
  .next (s.raiseHalt .illegalOpcode op)

end Sys2Proof.Machine
end

