-- ==== Sys2Proof/Machine/Dispatch.lean ====
section
/-! DEFINITION. The dispatch (R112, R190): one arm per constructor of Instr, each a call of its meaning. -/

namespace Sys2Proof.Machine

def exec (i : Instr) (s : State) : Host.Outcome State Fault Refusal :=
  match i with
  | .halt => Sys2Proof.Machine.execHalt s
  | .nop => Sys2Proof.Machine.execNop s
  | .mov dst src => Sys2Proof.Machine.execMov dst src s
  | .movi dst imm9 => Sys2Proof.Machine.execMovi dst imm9 s
  | .cmp dst src => Sys2Proof.Machine.execCmp dst src s
  | .jmp dst => Sys2Proof.Machine.execJmp dst s
  | .jz dst => Sys2Proof.Machine.execJz dst s
  | .jnz dst => Sys2Proof.Machine.execJnz dst s
  | .push dst => Sys2Proof.Machine.execPush dst s
  | .pop dst => Sys2Proof.Machine.execPop dst s
  | .call dst => Sys2Proof.Machine.execCall dst s
  | .stdoutStr => Sys2Proof.Machine.execStdoutStr s
  | .stdoutInt src => Sys2Proof.Machine.execStdoutInt src s
  | .stdoutPstr src => Sys2Proof.Machine.execStdoutPstr src s
  | .stdoutChr src => Sys2Proof.Machine.execStdoutChr src s
  | .stdoutRsvd mode => Sys2Proof.Machine.execStdoutRsvd mode s
  | .stdinLine src => Sys2Proof.Machine.execStdinLine src s
  | .stdinInt src => Sys2Proof.Machine.execStdinInt src s
  | .stdinIntAlt23 mode src => Sys2Proof.Machine.execStdinIntAlt23 mode src s
  | .stdinIntAlt47 mode src => Sys2Proof.Machine.execStdinIntAlt47 mode src s
  | .ret => Sys2Proof.Machine.execRet s
  | .load reg1 reg2 => Sys2Proof.Machine.execLoad reg1 reg2 s
  | .store reg1 reg2 => Sys2Proof.Machine.execStore reg1 reg2 s
  | .add reg1 reg2 => Sys2Proof.Machine.execAdd reg1 reg2 s
  | .sub reg1 reg2 => Sys2Proof.Machine.execSub reg1 reg2 s
  | .and reg1 reg2 => Sys2Proof.Machine.execAnd reg1 reg2 s
  | .or reg1 reg2 => Sys2Proof.Machine.execOr reg1 reg2 s
  | .xor reg1 reg2 => Sys2Proof.Machine.execXor reg1 reg2 s
  | .illegal op => Sys2Proof.Machine.execIllegal op s

end Sys2Proof.Machine
end

