-- ==== Sys2Proof/Machine/Step.lean ====
section
/-! DEFINITION. The step (R110): fetch, advance, decode, dispatch; a halted core takes none (R116). -/

namespace Sys2Proof.Machine

/-- One step. -/
def step (s : State) : Host.Outcome State Fault Refusal :=
  if s.halted then .next s.haltedStep else exec s.fetchInstr s.advance

/-- `s` with the instruction word placed where `step` fetches its next instruction, and running. -/
def State.withFetchWord (s : State) (nbits w : Nat) : State := s.placeWord nbits w

end Sys2Proof.Machine
end

