-- ==== Sys2Proof/Machine/HostPort.lean ====
section
/-! DEFINITION. The host-control port (R220, D20): reset, run, memory access, status and dump, save and load, between steps only (R247). -/

namespace Sys2Proof.Machine

/-- Reset (R240): the core at its reset values, memory zeroed (D19); the console is kept (log 8). -/
def State.hostReset (s : State) : State := State.resetWith Config.regReset Config.srReset s.console

/-- The run loop (R117): steps until halted. The machine has no limit; `fuel` bounds the model's run only
(log 22): a run that the fuel ends is the state reached. -/
def State.hostRun : Nat → State → Host.Outcome State Fault Refusal
  | 0, s => .next s
  | fuel + 1, s =>
    if s.halted then .next s
    else match step s with
      | .next t => State.hostRun fuel t
      | .fault f => .fault f
      | .refused r => .refused r

/-- read_byte(addr), addr reduced mod 2^20 (R53, R72). -/
def State.hostReadByte (s : State) (addr : Nat) : Byte := s.mem.read8 (BitVec.ofNat 20 addr)

/-- write_byte(addr, byte) (R54, R72). -/
def State.hostWriteByte (s : State) (addr : Nat) (b : Byte) : State := s.setMem (s.mem.write8 (BitVec.ofNat 20 addr) b)

/-- read_word16(addr) (R55, R72). -/
def State.hostReadWord16 (s : State) (addr : Nat) : Word := s.mem.read16 (BitVec.ofNat 20 addr)

/-- write_word16(addr, v) (R57, R72). -/
def State.hostWriteWord16 (s : State) (addr : Nat) (v : Word) : State :=
  s.setMem (s.mem.write16 (BitVec.ofNat 20 addr) v)

/-- read_addr20(addr) (R56, R72). -/
def State.hostReadAddr20 (s : State) (addr : Nat) : BitVec 20 := s.mem.read20 (BitVec.ofNat 20 addr)

/-- The loader: bytes written from an address up, before execution begins (R244). -/
def State.hostLoad (s : State) (addr : Nat) (bytes : List Byte) : State :=
  s.setMem (s.mem.writeBytes (BitVec.ofNat 20 addr) bytes)

/-- The diagnostic dump's content (R221), with the halt status the host may read (R220). -/
def State.dump (s : State) : Dump :=
  { pc := s.pc, sp := s.sp, flags := s.flags, regs := s.regs, halted := s.halted, latches := s.latches }

/-- The dump as text, in the format the spec leaves OPEN (R221, D28; log 21). -/
def State.dumpText (s : State) : List Byte := Config.dumpFormat s.dump

/-- The flags byte a host saves (R34). -/
def State.hostSaveFlags (s : State) : Byte := s.flags.toByte

/-- The segment registers a host saves (R37). -/
def State.hostSaveSr (s : State) : Vector Word 4 := s.sr

/-- The segment registers a host loads (R37; log 23). -/
def State.hostLoadSr (s : State) (sr : Vector Word 4) : State := { s with sr := sr }

/-- The output events sent so far, in instruction-execution order (R181): the history less the requests. -/
def Console.output (c : Console) : List ConEvent :=
  c.log.filter (fun e => match e with
    | .conIn _ => false
    | _ => true)

/-- The bytes the terminal shows, by the console's own rendering (R181, D24; log 21). -/
def Console.terminal (c : Console) : List Byte := c.output.flatMap Config.render

/-- The console holds one more answer ready; it may at any time, a blocked STDIN included (R247). -/
def State.consoleProvide (s : State) (a : ConAnswer) : State :=
  s.setConsole { s.console with pending := s.console.pending ++ [a] }

end Sys2Proof.Machine
end

