-- ==== Sys2Proof/Safety.lean ====
section
/-! DEFINITION. The terms claims are stated in: what stays the same, the machine's invariant, and the spec's tables of who writes what. -/

namespace Sys2Proof.Machine

/-- Every byte of memory reads as before. -/
def SameMemory (s t : State) : Prop := ∀ a : Addr, t.mem.read8 a = s.mem.read8 a

/-- Every byte reads as before but the `n` bytes from `base` up, mod 2^20. -/
def SameMemoryOutside (base : Addr) (n : Nat) (s t : State) : Prop :=
  ∀ a : Addr, (∀ k < n, a ≠ base + BitVec.ofNat 20 k) → t.mem.read8 a = s.mem.read8 a

/-- Every general register reads as before. -/
def SameRegs (s t : State) : Prop := ∀ r : RegIx, t.reg r = s.reg r

/-- Every general register reads as before but `d`. -/
def SameRegsBut (d : RegIx) (s t : State) : Prop := ∀ r : RegIx, r ≠ d → t.reg r = s.reg r

/-- The run state, the halt latches and the segment registers are as before. -/
def SameRunState (s t : State) : Prop := t.halted = s.halted ∧ t.latches = s.latches ∧ t.sr = s.sr

/-- `g` is `f` with Z and S recomputed from the result `v` (R31, R120): C and V as in `f`. -/
def ZeroSignOf (v : Word) (f g : Flags) : Prop :=
  g.z = decide (v = 0) ∧ g.s = decide (0x8000 ≤ v.toNat) ∧ g.c = f.c ∧ g.v = f.v

/-- The halt latches tell why the core is halted, and say NONE while it runs (R211, R213): a halted core's pc is
the halting address + 2, and its cause is HALT_INSTR with op 0 or ILLEGAL_OPCODE with op 0xE or 0xF. -/
def LatchesTell (s : State) : Prop :=
  if s.halted then
    s.pc = s.latches.addr + 2 ∧
      ((s.latches.cause = .haltInstr ∧ s.latches.op = 0x0) ∨
        (s.latches.cause = .illegalOpcode ∧ (s.latches.op = 0xE ∨ s.latches.op = 0xF)))
  else s.latches = { cause := .none, op := 0, addr := 0 }

/-- An event as R181 describes it: an integer in −32768 to 32767, a string without its terminator. -/
def ConEvent.Lawful : ConEvent → Prop
  | .outStr bytes => ∀ b ∈ bytes, b ≠ 0
  | .outInt n => -32768 ≤ n ∧ n ≤ 32767
  | .outChar _ => True
  | .conIn _ => True

/-- The invariant of the machine: memory in canonical form, sp even (R30), latches that tell why (R211), and
a console history of lawful events (R181). -/
structure State.Inv (s : State) : Prop where
  mem_wf : s.mem.wf = true
  sp_even : s.sp.toNat % 2 = 0
  latches_tell : LatchesTell s
  log_lawful : ∀ e ∈ s.console.log, e.Lawful

end Sys2Proof.Machine

namespace Sys2Proof

open Sys2Proof.Machine

/-- The instructions that write Z and S (R32). The numeric reads write them on well-formed input only. -/
def Instr.writesZeroSign : Instr → Bool
  | .mov _ _ | .movi _ _ | .cmp _ _ | .pop _ | .stdinInt _ | .stdinIntAlt23 _ _ | .stdinIntAlt47 _ _ => true
  | .load _ _ | .add _ _ | .sub _ _ | .and _ _ | .or _ _ | .xor _ _ => true
  | .halt | .nop | .jmp _ | .jz _ | .jnz _ | .push _ | .call _ | .stdoutStr | .stdoutInt _ => false
  | .stdoutPstr _ | .stdoutChr _ | .stdoutRsvd _ | .stdinLine _ | .ret | .store _ _ | .illegal _ => false

/-- The instructions that write C (R32): CMP, ADD and SUB. -/
def Instr.writesCarry : Instr → Bool
  | .cmp _ _ | .add _ _ | .sub _ _ => true
  | .mov _ _ | .movi _ _ | .pop _ | .stdinInt _ | .stdinIntAlt23 _ _ | .stdinIntAlt47 _ _ => false
  | .load _ _ | .and _ _ | .or _ _ | .xor _ _ => false
  | .halt | .nop | .jmp _ | .jz _ | .jnz _ | .push _ | .call _ | .stdoutStr | .stdoutInt _ => false
  | .stdoutPstr _ | .stdoutChr _ | .stdoutRsvd _ | .stdinLine _ | .ret | .store _ _ | .illegal _ => false

/-- The instructions that write V (R32): ADD and SUB. -/
def Instr.writesOverflow : Instr → Bool
  | .add _ _ | .sub _ _ => true
  | .mov _ _ | .movi _ _ | .cmp _ _ | .pop _ | .stdinInt _ | .stdinIntAlt23 _ _ | .stdinIntAlt47 _ _ => false
  | .load _ _ | .and _ _ | .or _ _ | .xor _ _ => false
  | .halt | .nop | .jmp _ | .jz _ | .jnz _ | .push _ | .call _ | .stdoutStr | .stdoutInt _ => false
  | .stdoutPstr _ | .stdoutChr _ | .stdoutRsvd _ | .stdinLine _ | .ret | .store _ _ | .illegal _ => false

/-- The general register an instruction writes (R22). -/
def Instr.dest : Instr → Option RegIx
  | .mov d _ | .movi d _ | .pop d | .load d _ | .add d _ | .sub d _ | .and d _ | .or d _ | .xor d _ => some d
  | .stdinInt d | .stdinIntAlt23 _ d | .stdinIntAlt47 _ d => some d
  | .cmp _ _ | .halt | .nop | .jmp _ | .jz _ | .jnz _ | .push _ | .call _ | .stdoutStr | .stdoutInt _ => none
  | .stdoutPstr _ | .stdoutChr _ | .stdoutRsvd _ | .stdinLine _ | .ret | .store _ _ | .illegal _ => none

/-- The sp after an instruction, from the sp before it, mod 2^20 (R29, R160, R161). -/
def Instr.spAfter (i : Instr) (sp : Addr) : Addr :=
  match i with
  | .push _ => sp - 2
  | .pop _ => sp + 2
  | .call _ => sp - 4
  | .ret => sp + 4
  | .mov _ _ | .movi _ _ | .cmp _ _ | .stdinInt _ | .stdinIntAlt23 _ _ | .stdinIntAlt47 _ _ => sp
  | .load _ _ | .add _ _ | .sub _ _ | .and _ _ | .or _ _ | .xor _ _ | .store _ _ | .illegal _ => sp
  | .halt | .nop | .jmp _ | .jz _ | .jnz _ | .stdoutStr | .stdoutInt _ => sp
  | .stdoutPstr _ | .stdoutChr _ | .stdoutRsvd _ | .stdinLine _ => sp

/-- The instructions that may leave the pc elsewhere than at A + 2 (R26). -/
def Instr.movesPc : Instr → Bool
  | .jmp _ | .jz _ | .jnz _ | .call _ | .ret | .stdoutStr => true
  | .mov _ _ | .movi _ _ | .cmp _ _ | .pop _ | .stdinInt _ | .stdinIntAlt23 _ _ | .stdinIntAlt47 _ _ => false
  | .load _ _ | .add _ _ | .sub _ _ | .and _ _ | .or _ _ | .xor _ _ | .store _ _ | .illegal _ => false
  | .halt | .nop | .push _ | .stdoutInt _ | .stdoutPstr _ | .stdoutChr _ | .stdoutRsvd _ | .stdinLine _ => false

/-- The instructions that halt the core (R35). -/
def Instr.halts : Instr → Bool
  | .halt | .illegal _ => true
  | .mov _ _ | .movi _ _ | .cmp _ _ | .pop _ | .stdinInt _ | .stdinIntAlt23 _ _ | .stdinIntAlt47 _ _ => false
  | .load _ _ | .add _ _ | .sub _ _ | .and _ _ | .or _ _ | .xor _ _ | .store _ _ | .ret => false
  | .nop | .jmp _ | .jz _ | .jnz _ | .push _ | .call _ | .stdoutStr | .stdoutInt _ => false
  | .stdoutPstr _ | .stdoutChr _ | .stdoutRsvd _ | .stdinLine _ => false

/-- Where an instruction stores in a state, and how many bytes (R61): the address its meaning stores to. -/
def Instr.storesAt (i : Instr) (s : State) : Addr × Nat :=
  match i with
  | .store reg1 _ => (s.regAddr reg1, 2)
  | .push _ => (s.sp - 2, 2)
  | .call _ => (s.sp - 4, 4)
  | .stdinLine src =>
    (s.regAddr src, match s.console.answer with
      | some (ans, _) => ans.line.length + 1
      | none => 0)
  | .mov _ _ | .movi _ _ | .cmp _ _ | .pop _ | .stdinInt _ | .stdinIntAlt23 _ _ | .stdinIntAlt47 _ _ => (0, 0)
  | .load _ _ | .add _ _ | .sub _ _ | .and _ _ | .or _ _ | .xor _ _ | .illegal _ | .ret => (0, 0)
  | .halt | .nop | .jmp _ | .jz _ | .jnz _ | .stdoutStr | .stdoutInt _ => (0, 0)
  | .stdoutPstr _ | .stdoutChr _ | .stdoutRsvd _ => (0, 0)

end Sys2Proof
end

