-- ==== Sys2Proof/Certificates/Slice0/Obligations.lean ====
section
/-! DEFINITION. The statements for the provers. A statement of a result is its instruction's completion statement too: its conclusion is a next state of exec. -/

open Sys2Proof Sys2Proof.Machine

/-! ## Encoding -/

/-- Encoding is the inverse of decoding (R95): every well-formed instruction, with every operand, is read back
from its two bytes, and the bytes after it are left. The opcode values are the spec's decisions D1 and D2. -/
def Obligations.DecodeReadsBackEveryEncoding : Prop :=
  ∀ (i : Instr) (rest : List Byte), i.WellFormed = true → decode (encode i ++ rest) = .ok (i, rest)

/-- Words that agree on the bits R89 does not mark x decode alike: the x bits are ignored (R90, the spec's
decision D9). The mode and op bits that are operands of a row count as read. -/
def Obligations.UnusedBitsAreIgnored : Prop :=
  ∀ w w' : Word, w &&& (decodeWord w).readMask = w' &&& (decodeWord w).readMask → decodeWord w' = decodeWord w

/-- Encoding what a word decodes to gives that word with every unread bit 0, the canonical encoding (R90, R95). -/
def Obligations.EncoderWritesZeroInUnusedBits : Prop :=
  ∀ w : Word, encodeWord (decodeWord w) = w &&& (decodeWord w).readMask

/-- Every word lies in the opcode table's row of the instruction it decodes to, and in no other row: a row that
a word matches is its own (R84, R86, R89). -/
def Obligations.EveryWordLiesInItsTableRowAlone : Prop :=
  ∀ (w : Word) (j : Instr),
    w &&& (decodeWord w).row.mask = (decodeWord w).row.value ∧
    (w &&& j.row.mask = j.row.value → j.row = (decodeWord w).row)

/-- The words 0xE000 to 0xFFFF, and no others, are illegal; executing one halts the core with cause
ILLEGAL_OPCODE (R91). -/
def Obligations.IllegalWordsAreThoseFromE000 : Prop :=
  ∀ w : Word,
    ((∃ op, decodeWord w = .illegal op) ↔ 0xE000 ≤ w.toNat) ∧
    (0xE000 ≤ w.toNat → ∀ s : State, ∃ t, exec (decodeWord w) s = .next t ∧
      t.halted = true ∧ t.latches.cause = .illegalOpcode ∧ t.latches.op.toNat = w.toNat / 4096)

/-- Words written out from the spec's encodings (R89, R95, R96 and its examples) decode to the instructions
they stand for. A sanity statement. -/
def Obligations.SpecWordsDecodeAsWritten : Prop :=
  decodeWord 0b0011_000_000000101#16 = .movi 0 5 ∧
  decodeWord 0b1101_011_000_001_000#16 = .add 0 1 ∧
  decodeWord 0b0010_001_011_000000#16 = .mov 1 3 ∧
  decodeWord 0b1101_010_010_001_000#16 = .store 2 1 ∧
  decodeWord 0b1010_101_000_000000#16 = .call 5 ∧
  decodeWord 0b1011_010_010_000000#16 = .stdoutPstr 2 ∧
  decodeWord 0b1100_000_011_000000#16 = .stdinLine 3 ∧
  decodeWord 0b1110_000_000_000000#16 = .illegal 0xE

/-! ## The step -/

/-- When the two bytes at the pc decode to `i`, a running core's step is `i`'s meaning with the pc advanced by
2, mod 2^20 (R110, R111). -/
def Obligations.StepRunsTheInstructionAtThePc : Prop :=
  ∀ (s : State) (i : Instr), s.halted = false →
    decode [s.mem.read8 s.pc, s.mem.read8 (s.pc + 1)] = .ok (i, []) →
    step s = exec i { s with pc := BitVec.ofNat 20 (s.pc.toNat + 2) }

/-- An instruction the loader writes at the pc is the one the next step runs: its bytes, loaded, are fetched
and decoded back to it (R70, R95, R244). -/
def Obligations.LoadedInstructionRunsNext : Prop :=
  ∀ (s : State) (i : Instr), s.halted = false → s.mem.wf = true → i.WellFormed = true →
    step (s.hostLoad s.pc.toNat (encode i)) =
      exec i { s.hostLoad s.pc.toNat (encode i) with pc := BitVec.ofNat 20 (s.pc.toNat + 2) }

/-- A halted core takes no step: a step and a run of any length give the state back (R116, the spec's decision
D27). -/
def Obligations.HaltedCoreStaysAsItIs : Prop :=
  ∀ (s : State) (n : Nat), s.halted = true → step s = .next s ∧ Sys2Proof.core.run n s = .next s

/-- A step has a next state but in two cases, the steps that never complete: a string output when no byte of
memory is 0x00 (R180, D15), and an input request of a console that never answers (R182). It is never refused,
and no memory access faults (R52). The two fault names are the model's (log 5, log 6). -/
def Obligations.StepCompletesButForTwoWaits : Prop :=
  ∀ s : State,
    (∃ t, step s = .next t) ∨
    (step s = .fault .scanNeverEnds ∧ s.halted = false ∧ (∀ a : Addr, s.mem.read8 a ≠ 0) ∧
      (s.fetchInstr = .stdoutStr ∨ ∃ r, s.fetchInstr = .stdoutPstr r)) ∨
    (step s = .fault .stdinUnanswered ∧ s.halted = false ∧ s.console.pending = [] ∧ s.console.rest = .silent ∧
      ∃ m r, s.fetchInstr = .stdinLine r ∨ s.fetchInstr = .stdinInt r ∨ s.fetchInstr = .stdinIntAlt23 m r ∨
        s.fetchInstr = .stdinIntAlt47 m r)

/-! ## System instructions -/

/-- NOP changes nothing but the pc, whatever its low twelve bits hold: bits 11 to 0 are ignored (R114). -/
def Obligations.NopOnlyAdvancesThePc : Prop :=
  ∀ s : State, exec .nop s = .next s ∧
    (s.halted = false → s.fetchWord.toNat / 4096 = 1 →
      step s = .next { s with pc := BitVec.ofNat 20 (s.pc.toNat + 2) })

/-- STDOUT modes 4 to 7 change nothing but the pc and send no event (R175, the spec's decision D11). -/
def Obligations.ReservedStdoutModesOnlyAdvanceThePc : Prop :=
  ∀ (s : State) (mode : BitVec 3), exec (.stdoutRsvd mode) s = .next s ∧
    (s.halted = false → s.fetchWord.toNat / 2048 = 0b10111 →
      step s = .next { s with pc := BitVec.ofNat 20 (s.pc.toNat + 2) })

/-- HALT and the illegal opcodes halt the core and record the cause, the op and the address A they were fetched
from; the pc stays at A + 2 and nothing else changes (R113, R115, R212). The latches and their causes are the
spec's decision D18. -/
def Obligations.HaltRecordsCauseOpAndAddress : Prop :=
  ∀ (s : State) (addr : Addr), s.pc = addr + 2 →
    exec .halt s = .next { s with halted := true, latches := { cause := .haltInstr, op := 0, addr := addr } } ∧
    ∀ op, exec (.illegal op) s =
      .next { s with halted := true, latches := { cause := .illegalOpcode, op := op, addr := addr } }

/-! ## Moves and compare -/

/-- MOV and MOVI write their value to dst, set Z and S from it, and change nothing else; MOVI's value is imm9 as
a 9-bit two's-complement number (R140, R141, R87). C and V stay by the spec's decision D8. -/
def Obligations.MovesWriteTheValueAndSetZeroSign : Prop :=
  ∀ (s : State) (dst src : RegIx) (imm9 : BitVec 9),
    (∃ t, exec (.mov dst src) s = .next t ∧ t.reg dst = s.reg src ∧ ZeroSignOf (s.reg src) s.flags t.flags ∧
      SameRegsBut dst s t ∧ t.pc = s.pc ∧ t.sp = s.sp ∧ SameRunState s t ∧ SameMemory s t ∧
      t.console = s.console) ∧
    (∃ t, exec (.movi dst imm9) s = .next t ∧ (t.reg dst).toInt = imm9.toInt ∧
      ZeroSignOf (t.reg dst) s.flags t.flags ∧
      SameRegsBut dst s t ∧ t.pc = s.pc ∧ t.sp = s.sp ∧ SameRunState s t ∧ SameMemory s t ∧
      t.console = s.console)

/-- CMP writes no register: Z says the operands are equal, S is bit 15 of the 16-bit difference, C says
x[dst] < x[src] unsigned (R142). V stays by the spec's decision D6, C is cleared without a borrow by D7. -/
def Obligations.CmpComparesAndWritesNoRegister : Prop :=
  ∀ (s : State) (dst src : RegIx), ∃ t, exec (.cmp dst src) s = .next t ∧
    t.flags.z = decide (s.reg dst = s.reg src) ∧
    t.flags.s = (s.reg dst - s.reg src).msb ∧
    t.flags.c = decide ((s.reg dst).toNat < (s.reg src).toNat) ∧
    t.flags.v = s.flags.v ∧
    SameRegs s t ∧ t.pc = s.pc ∧ t.sp = s.sp ∧ SameRunState s t ∧ SameMemory s t ∧ t.console = s.console

/-! ## Jumps -/

/-- JMP sets the pc to the register's 16-bit value and changes nothing else (R150). -/
def Obligations.JmpGoesToTheRegistersAddress : Prop :=
  ∀ (s : State) (dst : RegIx), ∃ t, exec (.jmp dst) s = .next t ∧
    t.pc.toNat = (s.reg dst).toNat ∧ t = { s with pc := t.pc }

/-- JZ jumps exactly when Z = 1, JNZ exactly when Z = 0; a jump not taken leaves the pc; nothing else changes
(R151, R152). -/
def Obligations.ConditionalJumpsTestZero : Prop :=
  ∀ (s : State) (dst : RegIx),
    (∃ t, exec (.jz dst) s = .next t ∧ t = { s with pc := t.pc } ∧
      (s.flags.z = true → t.pc.toNat = (s.reg dst).toNat) ∧ (s.flags.z = false → t.pc = s.pc)) ∧
    (∃ t, exec (.jnz dst) s = .next t ∧ t = { s with pc := t.pc } ∧
      (s.flags.z = false → t.pc.toNat = (s.reg dst).toNat) ∧ (s.flags.z = true → t.pc = s.pc))

/-! ## Stack, call and return -/

/-- PUSH lowers the sp by 2 and writes the register there, little-endian; every other byte, every register and
every flag stays (R160, R162). -/
def Obligations.PushStoresTheRegisterBelowTheStack : Prop :=
  ∀ (s : State) (dst : RegIx), s.mem.wf = true → ∃ t, exec (.push dst) s = .next t ∧
    t.sp = s.sp - 2 ∧
    (t.mem.read8 (s.sp - 2)).toNat = (s.reg dst).toNat % 256 ∧
    (t.mem.read8 (s.sp - 1)).toNat = (s.reg dst).toNat / 256 ∧
    SameMemoryOutside (s.sp - 2) 2 s t ∧
    SameRegs s t ∧ t.flags = s.flags ∧ t.pc = s.pc ∧ SameRunState s t ∧ t.console = s.console

/-- POP reads the word at the sp into dst, sets Z and S from it, raises the sp by 2, and leaves all of memory
(R161, R163). C and V stay by the spec's decision D8. -/
def Obligations.PopLoadsTheTopOfTheStack : Prop :=
  ∀ (s : State) (dst : RegIx), ∃ t, exec (.pop dst) s = .next t ∧
    (t.reg dst).toNat = (s.mem.read8 s.sp).toNat + 256 * (s.mem.read8 (s.sp + 1)).toNat ∧
    ZeroSignOf (t.reg dst) s.flags t.flags ∧ t.sp = s.sp + 2 ∧
    SameRegsBut dst s t ∧ t.pc = s.pc ∧ SameRunState s t ∧ SameMemory s t ∧ t.console = s.console

/-- CALL pushes the return address, the pc after the fetch, as its low 16 bits and then its high 4 bits, and
goes to the register's address; the frame is the four bytes from sp − 4 (R164). -/
def Obligations.CallPushesTheReturnAddress : Prop :=
  ∀ (s : State) (dst : RegIx), s.mem.wf = true → ∃ t, exec (.call dst) s = .next t ∧
    t.pc.toNat = (s.reg dst).toNat ∧ t.sp = s.sp - 4 ∧
    (t.mem.read8 (s.sp - 2)).toNat = s.pc.toNat % 256 ∧
    (t.mem.read8 (s.sp - 1)).toNat = s.pc.toNat / 256 % 256 ∧
    (t.mem.read8 (s.sp - 4)).toNat = s.pc.toNat / 65536 ∧
    t.mem.read8 (s.sp - 3) = 0 ∧
    SameMemoryOutside (s.sp - 4) 4 s t ∧
    SameRegs s t ∧ t.flags = s.flags ∧ SameRunState s t ∧ t.console = s.console

/-- RET pops the high word, then the low word: the pc is the low word with the high word's low 4 bits above it;
the sp rises by 4 and nothing else changes (R165, the pop order by C1). -/
def Obligations.RetPopsHighThenLow : Prop :=
  ∀ s : State, ∃ t, exec .ret s = .next t ∧
    t.pc.toNat = (s.mem.read8 s.sp).toNat % 16 * 65536 +
      (s.mem.read8 (s.sp + 3)).toNat * 256 + (s.mem.read8 (s.sp + 2)).toNat ∧
    t = { s with pc := t.pc, sp := s.sp + 4 }

/-- CALL and RET compose (R166): after a CALL, in any later state with the sp and the four stack bytes the CALL
left, RET gives the return address and the sp before the CALL. -/
def Obligations.RetUndoesCall : Prop :=
  ∀ (s t u : State) (dst : RegIx), s.mem.wf = true → exec (.call dst) s = .next t → u.sp = t.sp →
    (∀ k < 4, u.mem.read8 (t.sp + BitVec.ofNat 20 k) = t.mem.read8 (t.sp + BitVec.ofNat 20 k)) →
    ∃ v, exec .ret u = .next v ∧ v.pc = s.pc ∧ v.sp = s.sp

/-- PUSH then POP of any register into any register gives the identical value and the sp back (R163). -/
def Obligations.PopUndoesPush : Prop :=
  ∀ (s : State) (src dst : RegIx), s.mem.wf = true →
    ∃ t u, exec (.push src) s = .next t ∧ exec (.pop dst) t = .next u ∧
      u.reg dst = s.reg src ∧ u.sp = s.sp

/-! ## Console output -/

/-- STDOUT 0 and STDOUT 2 emit the bytes from the string's start up to the first 0x00, wrapping mod 2^20. The
string starts at the pc for mode 0, and the pc then goes past the terminator, rounded up to an even address
(R171, the rounding by the spec's decision D16); it starts at the register's address for mode 2, and the pc stays
(R173). One event is sent; nothing else changes. -/
def Obligations.StringOutputEmitsUpToTheTerminator : Prop :=
  ∀ (s : State) (src : RegIx) (start : Addr) (n : Nat),
    (∀ k < n, s.mem.read8 (start + BitVec.ofNat 20 k) ≠ 0) → s.mem.read8 (start + BitVec.ofNat 20 n) = 0 →
    (start = s.pc → ∃ t, exec .stdoutStr s = .next t ∧
      t.console = { s.console with log := s.console.log ++
        [.outStr ((List.range n).map fun k => s.mem.read8 (start + BitVec.ofNat 20 k))] } ∧
      t.pc = (if (start.toNat + n + 1) % 2 = 0 then BitVec.ofNat 20 (start.toNat + n + 1)
        else BitVec.ofNat 20 (start.toNat + n + 2)) ∧
      t = { s with pc := t.pc, console := t.console }) ∧
    (start.toNat = (s.reg src).toNat → ∃ t, exec (.stdoutPstr src) s = .next t ∧
      t.console = { s.console with log := s.console.log ++
        [.outStr ((List.range n).map fun k => s.mem.read8 (start + BitVec.ofNat 20 k))] } ∧
      t = { s with console := t.console })

/-- STDOUT 0 and STDOUT 2 complete exactly when some byte of memory is 0x00; with none the scan never ends and
the step never completes (R180, the spec's decision D15). The fault's name is the model's (log 5). -/
def Obligations.StringOutputWaitsForeverWithoutTerminator : Prop :=
  ∀ (s : State) (src : RegIx),
    ((∃ a : Addr, s.mem.read8 a = 0) →
      (∃ t, exec .stdoutStr s = .next t) ∧ (∃ t, exec (.stdoutPstr src) s = .next t)) ∧
    ((∀ a : Addr, s.mem.read8 a ≠ 0) →
      exec .stdoutStr s = .fault .scanNeverEnds ∧ exec (.stdoutPstr src) s = .fault .scanNeverEnds)

/-- STDOUT 1 emits the register as a signed 16-bit integer, STDOUT 3 its low byte; one event is sent and
nothing else changes (R172, R174). -/
def Obligations.RegisterOutputEmitsIntegerOrCharacter : Prop :=
  ∀ (s : State) (src : RegIx),
    exec (.stdoutInt src) s =
      .next { s with console := { s.console with log := s.console.log ++ [.outInt (s.reg src).toInt] } } ∧
    ∃ b : Byte, b.toNat = (s.reg src).toNat % 256 ∧
      exec (.stdoutChr src) s =
        .next { s with console := { s.console with log := s.console.log ++ [.outChar b] } }

/-! ## Console input -/

/-- Where the console's answer comes from: the answers it holds ready, in order; then, as `rest` says, a free
answer (the value of `Config.conOracle`, whatever it is), the spec's choice at end of input (D13), or none
(R182). The form of the port's data is the model's (log 3, log 4, log 7). -/
def Obligations.ConsoleAnswersInOrderThenAsRestSays : Prop :=
  ∀ (c : Console) (a : ConAnswer) (more : List ConAnswer),
    (c.pending = a :: more → c.answer = some (a, { c with pending := more })) ∧
    (c.pending = [] → c.rest = .oracle →
      c.answer = some (Config.conOracle c.draws, { c with draws := c.draws + 1 })) ∧
    (c.pending = [] → c.rest = .endOfInput → c.answer = some ({ line := [], int := .malformed }, c)) ∧
    (c.pending = [] → c.rest = .silent → c.answer = none)

/-- STDIN 0 writes the answered line and a 0x00 from the register's address up, wrapping mod 2^20, without a
length limit (R177, the spec's decision D17): each byte reads back unless a later one wrapped onto it, every byte
outside the run, every register and every flag stays. -/
def Obligations.LineInputWritesTheLineAndTerminator : Prop :=
  ∀ (s : State) (src : RegIx) (ans : ConAnswer) (c : Console), s.mem.wf = true →
    s.console.answer = some (ans, c) →
    ∃ t, exec (.stdinLine src) s = .next t ∧
      (∀ (k : Nat) (hk : k < (ans.line ++ [(0 : Byte)]).length),
        (∀ j, k < j → j ≤ ans.line.length →
          s.regAddr src + BitVec.ofNat 20 j ≠ s.regAddr src + BitVec.ofNat 20 k) →
        t.mem.read8 (s.regAddr src + BitVec.ofNat 20 k) = (ans.line ++ [(0 : Byte)])[k]) ∧
      SameMemoryOutside (s.regAddr src) (ans.line.length + 1) s t ∧
      t.console = { c with log := s.console.log ++ [.conIn .line] } ∧
      SameRegs s t ∧ t.flags = s.flags ∧ t.pc = s.pc ∧ t.sp = s.sp ∧ SameRunState s t

/-- STDIN 1 to 7 with an answered integer n store n mod 2^16 in the register and set Z and S from it; on malformed
input the register and the flags stay (R178). Modes 2 to 7 read an integer by the spec's decision D12; C and V stay
by D8. -/
def Obligations.IntegerInputStoresModuloOrNothing : Prop :=
  ∀ (s : State) (i : Instr) (mode : BitVec 3) (src : RegIx) (ans : ConAnswer) (c : Console),
    i ∈ [Instr.stdinInt src, .stdinIntAlt23 mode src, .stdinIntAlt47 mode src] →
    s.console.answer = some (ans, c) →
    ∃ t, exec i s = .next t ∧
      (∀ n : Int, ans.int = .int n →
        ((t.reg src).toNat : Int) = n % 65536 ∧ ZeroSignOf (t.reg src) s.flags t.flags) ∧
      (ans.int = .malformed → t.reg src = s.reg src ∧ t.flags = s.flags) ∧
      SameRegsBut src s t ∧ t.console = { c with log := s.console.log ++ [.conIn .int] } ∧
      t.pc = s.pc ∧ t.sp = s.sp ∧ SameRunState s t ∧ SameMemory s t

/-- A STDIN whose console never answers never completes; the same STDIN completes once the console holds an
answer (R182, R226, R247). The fault's name is the model's (log 6). -/
def Obligations.InputWaitsUntilTheConsoleAnswers : Prop :=
  ∀ (s : State) (i : Instr) (mode : BitVec 3) (src : RegIx) (ans : ConAnswer),
    i ∈ [Instr.stdinLine src, .stdinInt src, .stdinIntAlt23 mode src, .stdinIntAlt47 mode src] →
    s.console.pending = [] → s.console.rest = .silent →
    exec i s = .fault .stdinUnanswered ∧ ∃ t, exec i (s.consoleProvide ans) = .next t ∧ t.console.pending = []

/-! ## Extended instructions -/

/-- LOAD reads the little-endian word at reg2's zero-extended address into reg1 and sets Z and S from it; the
high byte's address does not wrap at 16 bits (R192). C and V stay by the spec's decision D8. -/
def Obligations.LoadReadsTheWordAtTheAddress : Prop :=
  ∀ (s : State) (reg1 reg2 : RegIx), ∃ t, exec (.load reg1 reg2) s = .next t ∧
    (t.reg reg1).toNat = (s.mem.read8 (BitVec.ofNat 20 (s.reg reg2).toNat)).toNat +
      256 * (s.mem.read8 (BitVec.ofNat 20 ((s.reg reg2).toNat + 1))).toNat ∧
    ZeroSignOf (t.reg reg1) s.flags t.flags ∧
    SameRegsBut reg1 s t ∧ t.pc = s.pc ∧ t.sp = s.sp ∧ SameRunState s t ∧ SameMemory s t ∧ t.console = s.console

/-- STORE writes reg2 little-endian at reg1's zero-extended address; every other byte, every register and every
flag stays (R193). -/
def Obligations.StoreWritesTheWordAtTheAddress : Prop :=
  ∀ (s : State) (reg1 reg2 : RegIx), s.mem.wf = true → ∃ t, exec (.store reg1 reg2) s = .next t ∧
    (t.mem.read8 (BitVec.ofNat 20 (s.reg reg1).toNat)).toNat = (s.reg reg2).toNat % 256 ∧
    (t.mem.read8 (BitVec.ofNat 20 ((s.reg reg1).toNat + 1))).toNat = (s.reg reg2).toNat / 256 ∧
    SameMemoryOutside (s.regAddr reg1) 2 s t ∧
    SameRegs s t ∧ t.flags = s.flags ∧ t.pc = s.pc ∧ t.sp = s.sp ∧ SameRunState s t ∧ t.console = s.console

/-- ADD stores the sum mod 2^16 in reg1; C says the sum passes 0xFFFF, V that the operands have the same sign bit
and the result another, Z and S are the result's (R121, R194). -/
def Obligations.AddStoresTheSumAndFourFlags : Prop :=
  ∀ (s : State) (reg1 reg2 : RegIx), ∃ t, exec (.add reg1 reg2) s = .next t ∧
    (t.reg reg1).toNat = ((s.reg reg1).toNat + (s.reg reg2).toNat) % 65536 ∧
    t.flags.z = decide (t.reg reg1 = 0) ∧
    t.flags.s = (t.reg reg1).msb ∧
    t.flags.c = decide (0xFFFF < (s.reg reg1).toNat + (s.reg reg2).toNat) ∧
    (t.flags.v = true ↔ (s.reg reg1).msb = (s.reg reg2).msb ∧ (t.reg reg1).msb ≠ (s.reg reg1).msb) ∧
    SameRegsBut reg1 s t ∧ t.pc = s.pc ∧ t.sp = s.sp ∧ SameRunState s t ∧ SameMemory s t ∧ t.console = s.console

/-- SUB stores the difference mod 2^16 in reg1; C is the unsigned borrow, V says that the operands have different
sign bits and the result another than reg1's, Z and S are the result's (R122, R195). C is written in both cases by
the spec's decision D7. -/
def Obligations.SubStoresTheDifferenceAndFourFlags : Prop :=
  ∀ (s : State) (reg1 reg2 : RegIx), ∃ t, exec (.sub reg1 reg2) s = .next t ∧
    ((t.reg reg1).toNat : Int) = ((s.reg reg1).toNat - (s.reg reg2).toNat : Int) % 65536 ∧
    t.flags.z = decide (t.reg reg1 = 0) ∧
    t.flags.s = (t.reg reg1).msb ∧
    t.flags.c = decide ((s.reg reg1).toNat < (s.reg reg2).toNat) ∧
    (t.flags.v = true ↔ (s.reg reg1).msb ≠ (s.reg reg2).msb ∧ (t.reg reg1).msb ≠ (s.reg reg1).msb) ∧
    SameRegsBut reg1 s t ∧ t.pc = s.pc ∧ t.sp = s.sp ∧ SameRunState s t ∧ SameMemory s t ∧ t.console = s.console

/-- V after ADD or SUB is signed overflow: the exact signed result lies outside −32768 to 32767 (R31). -/
def Obligations.OverflowIsSignedOverflow : Prop :=
  ∀ (s t u : State) (reg1 reg2 : RegIx),
    exec (.add reg1 reg2) s = .next t → exec (.sub reg1 reg2) s = .next u →
    (t.flags.v = true ↔ ¬(-32768 ≤ (s.reg reg1).toInt + (s.reg reg2).toInt ∧
      (s.reg reg1).toInt + (s.reg reg2).toInt ≤ 32767)) ∧
    (u.flags.v = true ↔ ¬(-32768 ≤ (s.reg reg1).toInt - (s.reg reg2).toInt ∧
      (s.reg reg1).toInt - (s.reg reg2).toInt ≤ 32767))

/-- AND, OR and XOR store the bitwise result in reg1, bit by bit, set Z and S from it, and leave C, V and
everything else (R123, R196, R197, R198). -/
def Obligations.LogicStoresTheBitwiseResult : Prop :=
  ∀ (s : State) (reg1 reg2 : RegIx) (i : Instr) (op : Bool → Bool → Bool),
    (i, op) ∈ [(Instr.and reg1 reg2, Bool.and), (.or reg1 reg2, Bool.or), (.xor reg1 reg2, Bool.xor)] →
    ∃ t, exec i s = .next t ∧
      (∀ k : Nat, k < 16 →
        (t.reg reg1).getLsbD k = op ((s.reg reg1).getLsbD k) ((s.reg reg2).getLsbD k)) ∧
      ZeroSignOf (t.reg reg1) s.flags t.flags ∧
      SameRegsBut reg1 s t ∧ t.pc = s.pc ∧ t.sp = s.sp ∧ SameRunState s t ∧ SameMemory s t ∧
      t.console = s.console

/-- The halt of an unassigned extended opcode: cause ILLEGAL_EXT, the ext value, the address A, the pc at A + 2,
nothing else changed (R199). No word reaches it: no word decodes to anything but the eight operations under op 0xD
(R92, C4; log 19). -/
def Obligations.UnassignedExtHaltIsDead : Prop :=
  (∀ (s : State) (ext : BitVec 3) (addr : Addr), s.pc = addr + 2 → ∃ op : BitVec 4, op.toNat = ext.toNat ∧
    s.raiseIllegalExt ext = { s with halted := true, latches := { cause := .illegalExt, op := op, addr := addr } }) ∧
  ∀ w : Word, w.toNat / 4096 = 0xD → ∃ r q : RegIx, decodeWord w ∈
    [Instr.ret, .load r q, .store r q, .add r q, .sub r q, .and r q, .or r q, .xor r q]

/-! ## Memory -/

/-- A byte write changes the byte at its address and no other (R54), the address reduced mod 2^20. -/
def Obligations.ByteWriteChangesOneByte : Prop :=
  ∀ (s : State) (addr x : Nat) (b : Byte), s.mem.wf = true →
    (s.hostWriteByte addr b).hostReadByte x =
      if x % 1048576 = addr % 1048576 then b else s.hostReadByte x

/-- A 16-bit word is its two bytes little-endian, each address reduced mod 2^20 on its own (R55). -/
def Obligations.WordReadIsTwoBytesLittleEndian : Prop :=
  ∀ (s : State) (addr : Nat),
    (s.hostReadWord16 addr).toNat =
      (s.hostReadByte (addr % 1048576)).toNat + 256 * (s.hostReadByte ((addr + 1) % 1048576)).toNat

/-- A word write then a word read at the same address gives the word back, at every address, the one that wraps
at the top of memory included; the low byte lies at the address, the high byte at the next, and no other byte
changes (R57, R59). -/
def Obligations.WordRoundTripsThroughMemory : Prop :=
  ∀ (s : State) (addr : Nat) (v : Word), s.mem.wf = true →
    (s.hostWriteWord16 addr v).hostReadWord16 addr = v ∧
    ((s.hostWriteWord16 addr v).hostReadByte addr).toNat = v.toNat % 256 ∧
    ((s.hostWriteWord16 addr v).hostReadByte (addr + 1)).toNat = v.toNat / 256 ∧
    SameMemoryOutside (BitVec.ofNat 20 addr) 2 s (s.hostWriteWord16 addr v)

/-- The 20-bit read takes three bytes and masks the third to its low 4 bits (R56). -/
def Obligations.TwentyBitReadMasksTheThirdByte : Prop :=
  ∀ (s : State) (addr : Nat),
    (s.hostReadAddr20 addr).toNat = (s.hostReadByte addr).toNat + 256 * (s.hostReadByte (addr + 1)).toNat +
      65536 * ((s.hostReadByte (addr + 2)).toNat % 16)

/-- A store is seen by the very next fetch: after a STORE at the address the pc is at, the word fetched is the one
stored, whatever was there (R70, the spec's decision D26). -/
def Obligations.StoreIsSeenByTheNextFetch : Prop :=
  ∀ (s t : State) (reg1 reg2 : RegIx), s.mem.wf = true → exec (.store reg1 reg2) s = .next t →
    t.pc.toNat = (s.reg reg1).toNat → t.halted = false →
    t.fetchWord = s.reg reg2 ∧ step t = exec (decodeWord (s.reg reg2)) { t with pc := t.pc + 2 }

/-! ## Reset and the host -/

/-- Reset, for every REG_RESET and SR_RESET: pc 0, sp 0xFFFFE, the flags clear, running, every memory byte 0x00,
the latches NONE, 0, 0, the registers and segment registers at the parameters (R40, R240), and the console the one
given. The host's reset is that action with the model's own parameters and the console of the state it resets, so
the console is kept (the model's choices: log 1, log 2, log 8), and the state after reset is it with the console of
the start; that the host's reset zeroes memory is the spec's decision D19. -/
def Obligations.ResetPutsEveryFieldAtItsValue : Prop :=
  ∀ (regs : Vector Word 8) (sr : Vector Word 4) (c : Console) (s : State),
    let r := State.resetWith regs sr c
    r.pc.toNat = 0 ∧ r.sp.toNat = 2 ^ 20 - 2 ∧ r.flags = { z := false, s := false, c := false, v := false } ∧
    r.halted = false ∧ (∀ a : Addr, r.mem.read8 a = 0) ∧ r.latches = { cause := .none, op := 0, addr := 0 } ∧
    r.regs = regs ∧ r.sr = sr ∧ r.console = c ∧
    s.hostReset = State.resetWith Config.regReset Config.srReset s.console ∧ s.hostReset.console = s.console ∧
    State.reset = State.resetWith Config.regReset Config.srReset Config.consoleStart

/-- The flags byte is 0000 V C S Z, and loading it gives the flags back (R34, the spec's decision D3). -/
def Obligations.FlagsBytePacksVCSZ : Prop :=
  ∀ f : Flags,
    f.toByte.toNat = f.z.toNat + 2 * f.s.toNat + 4 * f.c.toNat + 8 * f.v.toNat ∧ Flags.ofByte f.toByte = f

/-! ## The invariant -/

/-- The machine right after reset meets the invariant. -/
def Obligations.ResetMeetsTheInvariant : Prop := State.reset.Inv

/-- Every step keeps the invariant, from every state that meets it, reached or not: memory stays canonical, the
sp stays even (R30), the latches tell why the core is halted and say NONE while it runs (R211, R213), and the
history's events stay lawful (R181). -/
def Obligations.EveryStepKeepsTheInvariant : Prop :=
  ∀ s t : State, s.Inv → step s = .next t → t.Inv

/-! ## Rules of the whole machine -/

/-- A flag changes only by the instructions R32's table names for it: Z and S, C (CMP, ADD, SUB), V (ADD, SUB). -/
def Obligations.FlagsChangeOnlyAsTheTableSays : Prop :=
  ∀ (i : Instr) (s t : State), exec i s = .next t →
    (i.writesZeroSign = false → t.flags.z = s.flags.z ∧ t.flags.s = s.flags.s) ∧
    (i.writesCarry = false → t.flags.c = s.flags.c) ∧
    (i.writesOverflow = false → t.flags.v = s.flags.v)

/-- A general register changes only if it is the one register the instruction writes (R22), and the sp moves by
exactly what PUSH, POP, CALL and RET move it, mod 2^20, and by no other instruction (R29). -/
def Obligations.RegistersAndSpChangeOnlyAsListed : Prop :=
  ∀ (i : Instr) (s t : State), exec i s = .next t →
    (∀ r : RegIx, i.dest ≠ some r → t.reg r = s.reg r) ∧ t.sp = i.spAfter s.sp

/-- Every byte of memory stays but those the instruction stores (R61), at the address its meaning stores to: none
for an instruction that stores nothing. -/
def Obligations.MemoryChangesOnlyWhereStored : Prop :=
  ∀ (i : Instr) (s t : State), s.mem.wf = true → exec i s = .next t →
    SameMemoryOutside (i.storesAt s).1 (i.storesAt s).2 s t

/-- Only HALT and the illegal opcodes change the run state or the latches (R35, R36), no instruction changes a
segment register (R37), and the pc leaves A + 2 only by the instructions R26 lists. -/
def Obligations.RunStateAndPcChangeOnlyAsListed : Prop :=
  ∀ (i : Instr) (s t : State), exec i s = .next t →
    t.sr = s.sr ∧
    (i.halts = false → t.halted = s.halted ∧ t.latches = s.latches) ∧
    (i.halts = true → t.halted = true) ∧
    (i.movesPc = false → t.pc = s.pc)

/-- No program observes S, C or V (R33): two states that differ in these flags only step to the same outcome, and
their next states differ in these flags only. -/
def Obligations.SignCarryOverflowAreUnobserved : Prop :=
  ∀ (s : State) (f : Flags), f.z = s.flags.z →
    (∀ t, step s = .next t → ∃ g : Flags, g.z = t.flags.z ∧
      step { s with flags := f } = .next { t with flags := g }) ∧
    (∀ e, step s = .fault e → step { s with flags := f } = .fault e)

/-- The segment registers and the halt latches are read by no instruction (R36, R37): whatever they hold, a
step has the same outcome, the segment registers stay, and the latches are the old ones or the halt's. -/
def Obligations.SegmentRegistersAndLatchesAreUnread : Prop :=
  ∀ (s : State) (sr : Vector Word 4) (l : HaltLatches),
    (∀ t, step s = .next t →
      step { s with sr := sr, latches := l } =
        .next { t with sr := sr, latches := if t.halted = s.halted then l else t.latches }) ∧
    (∀ e, step s = .fault e → step { s with sr := sr, latches := l } = .fault e)

/-- The history only grows, in execution order (R181): by exactly one entry for each STDOUT of mode 0 to 3 and each
STDIN (an output event, or the request), by none for any other instruction. -/
def Obligations.HistoryGrowsByOneEventAtThePort : Prop :=
  ∀ (i : Instr) (s t : State), exec i s = .next t →
    ∃ events : List ConEvent, t.console.log = s.console.log ++ events ∧ events.length ≤ 1 ∧
      (events.length = 1 ↔ ∃ m r, i ∈ [Instr.stdoutStr, .stdoutInt r, .stdoutPstr r, .stdoutChr r, .stdinLine r,
        .stdinInt r, .stdinIntAlt23 m r, .stdinIntAlt47 m r])

/-- The run loop is the step repeated until halted (R117): a run of `n` steps by the host is `n` steps of the
machine, since a halted core's steps change nothing; it goes on from where a shorter run stopped. The number of
steps is the model's bound, not the machine's (log 22). -/
def Obligations.RunIsTheStepRepeated : Prop :=
  ∀ (n m : Nat) (s : State),
    s.hostRun n = Sys2Proof.core.run n s ∧
    ∀ t, s.hostRun n = .next t → s.hostRun (n + m) = t.hostRun m
end

