-- ==== Sys2Proof/Laws/Codec.lean ====
section
/-! SUPPORT. The codec: fields and their bits, a word as its two bytes, and that the decoder gives well-formed instructions only. -/

namespace Sys2Proof

/-- A register field packed again is the field's bits. -/
@[simp] theorem regBits_regField (w : Word) (lo : Nat) : regBits (regField w lo) = w.extractLsb' lo 3 := rfl

/-- A register index is read back from its bits. -/
@[simp] theorem toFin_regBits (r : RegIx) : (regBits r).toFin = r := rfl

/-- A word is its two bytes, the high one first (R58). -/
theorem extract_append_extract (w : Word) : w.extractLsb' 8 8 ++ w.extractLsb' 0 8 = w := by
  ext i hi
  simp only [BitVec.getElem_append, BitVec.getElem_extractLsb']
  split
  · simp [BitVec.getLsbD_eq_getElem hi]
  · rw [show 8 + (i - 8) = i by omega, BitVec.getLsbD_eq_getElem hi]

/-- The two bytes of an instruction decode as its word does (R58, R80). -/
theorem decode_encode_append (i : Instr) (rest : List Byte) :
    decode (encode i ++ rest) = .ok (decodeWord (encodeWord i), rest) := by
  simp only [encode, decode, List.cons_append, List.nil_append, extract_append_extract]

/-- The decoder gives well-formed instructions only. -/
theorem decodeWord_wellFormed (w : Word) : (decodeWord w).WellFormed = true := by
  have hop : w.getLsbD 15 = true → w.getLsbD 14 = true → w.getLsbD 13 = true →
      (Instr.illegal (opField w)).WellFormed = true := by
    intro h1 h2 h3
    have : ∀ x : BitVec 4, x.getLsbD 3 = true → x.getLsbD 2 = true → x.getLsbD 1 = true →
        (Instr.illegal x).WellFormed = true := by decide
    apply this <;> simpa [opField, BitVec.getLsbD_extractLsb']
  have hm1 : w.getLsbD 11 = true → (Instr.stdoutRsvd (modeField w)).WellFormed = true := by
    intro h
    have : ∀ x : BitVec 3, x.getLsbD 2 = true → (Instr.stdoutRsvd x).WellFormed = true := by decide
    apply this; simpa [modeField, BitVec.getLsbD_extractLsb']
  have hm2 : w.getLsbD 11 = true → (Instr.stdinIntAlt47 (modeField w) (srcField w)).WellFormed = true := by
    intro h
    have : ∀ x : BitVec 3, x.getLsbD 2 = true → (Instr.stdinIntAlt47 x (srcField w)).WellFormed = true := by
      intro x; exact (by decide : ∀ x : BitVec 3, x.getLsbD 2 = true → decide (4 ≤ x.toNat) = true) x
    apply this; simpa [modeField, BitVec.getLsbD_extractLsb']
  have hm3 : w.getLsbD 11 = false → w.getLsbD 10 = true →
      (Instr.stdinIntAlt23 (modeField w) (srcField w)).WellFormed = true := by
    intro h h'
    have : ∀ x : BitVec 3, x.getLsbD 2 = false → x.getLsbD 1 = true →
        (Instr.stdinIntAlt23 x (srcField w)).WellFormed = true := by
      intro x
      exact (by decide : ∀ x : BitVec 3, x.getLsbD 2 = false → x.getLsbD 1 = true →
        (decide (2 ≤ x.toNat) && decide (x.toNat ≤ 3)) = true) x
    apply this <;> simpa [modeField, BitVec.getLsbD_extractLsb']
  unfold decodeWord
  split <;> first
    | rfl
    | (unfold decodeStdout; split <;> first | rfl | exact hm1 ‹_›)
    | (unfold decodeStdin; split <;> first | rfl | exact hm3 ‹_› ‹_› | exact hm2 ‹_›)
    | (unfold decodeExt; split <;> rfl)
    | exact hop ‹_› ‹_› ‹_›

end Sys2Proof
end

