-- ==== Sys2Proof/Laws/Memory.lean ====
section
/-! SUPPORT. Memory: read after write, and that every memory operation keeps the canonical form. -/

namespace Sys2Proof.Machine

/-! ## The cell list -/

theorem Memory.wfFrom_mono {lo hi : Nat} (h : lo ≤ hi) {m : Memory} (hm : Memory.wfFrom hi m = true) :
    Memory.wfFrom lo m = true := by
  cases m with
  | nil => rfl
  | cons c rest =>
    obtain ⟨k, b⟩ := c
    simp only [Memory.wfFrom, Bool.and_eq_true, decide_eq_true_eq] at hm ⊢
    exact ⟨⟨⟨by omega, hm.1.1.2⟩, hm.1.2⟩, hm.2⟩

/-- Below the lower bound of a canonical list nothing is listed. -/
theorem Memory.lookup_below {lo a : Nat} {m : Memory} (hm : Memory.wfFrom lo m = true) (ha : a < lo) :
    m.lookup a = 0 := by
  induction m generalizing lo with
  | nil => rfl
  | cons c rest ih =>
    obtain ⟨k, b⟩ := c
    simp only [Memory.wfFrom, Bool.and_eq_true, decide_eq_true_eq] at hm
    have hk : k ≠ a := by omega
    simp only [Memory.lookup, if_neg hk]
    exact ih hm.2 (by omega)

theorem Memory.wfFrom_insert {lo a : Nat} {m : Memory} (v : Byte) (hm : Memory.wfFrom lo m = true)
    (hlo : lo ≤ a) (ha : a < memSize) : Memory.wfFrom lo (m.insert a v) = true := by
  induction m generalizing lo with
  | nil =>
    by_cases hv : v = 0
    · simp [Memory.insert, hv, Memory.wfFrom]
    · simp only [Memory.insert, if_neg hv, Memory.wfFrom, Bool.and_eq_true, decide_eq_true_eq]
      exact ⟨⟨⟨hlo, ha⟩, hv⟩, trivial⟩
  | cons c rest ih =>
    obtain ⟨k, b⟩ := c
    have hc := hm
    simp only [Memory.wfFrom, Bool.and_eq_true, decide_eq_true_eq] at hm
    obtain ⟨⟨⟨hk, hks⟩, hb⟩, hr⟩ := hm
    unfold Memory.insert
    split
    · split
      · exact hc
      · simp only [Memory.wfFrom, Bool.and_eq_true, decide_eq_true_eq]
        exact ⟨⟨⟨hlo, ha⟩, ‹_›⟩, ⟨⟨by omega, hks⟩, hb⟩, hr⟩
    · split
      · split
        · exact Memory.wfFrom_mono (by omega) hr
        · subst_vars
          simp only [Memory.wfFrom, Bool.and_eq_true, decide_eq_true_eq]
          exact ⟨⟨⟨hlo, ha⟩, ‹_›⟩, hr⟩
      · simp only [Memory.wfFrom, Bool.and_eq_true, decide_eq_true_eq]
        exact ⟨⟨⟨hk, hks⟩, hb⟩, ih hr (by omega)⟩

theorem Memory.lookup_insert {lo a : Nat} {m : Memory} (v : Byte) (hm : Memory.wfFrom lo m = true) (x : Nat) :
    (m.insert a v).lookup x = if x = a then v else m.lookup x := by
  induction m generalizing lo with
  | nil =>
    by_cases hv : v = 0
    · simp [Memory.insert, hv, Memory.lookup]
    · simp only [Memory.insert, if_neg hv, Memory.lookup, eq_comm]
  | cons c rest ih =>
    obtain ⟨k, b⟩ := c
    have hc := hm
    simp only [Memory.wfFrom, Bool.and_eq_true, decide_eq_true_eq] at hm
    obtain ⟨⟨⟨hk, hks⟩, hb⟩, hr⟩ := hm
    unfold Memory.insert
    split
    · rename_i hak
      split
      · rename_i hv
        by_cases hx : x = a
        · have hz : Memory.lookup ((k, b) :: rest) a = 0 :=
            Memory.lookup_below (lo := k) (by simp only [Memory.wfFrom, Bool.and_eq_true, decide_eq_true_eq]; exact ⟨⟨⟨Nat.le_refl k, hks⟩, hb⟩, hr⟩) hak
          simp [hx, hz, hv]
        · simp [hx]
      · by_cases hx : x = a
        · simp [Memory.lookup, hx]
        · simp only [Memory.lookup, if_neg hx, if_neg (Ne.symm hx)]
    · split
      · rename_i hak
        subst hak
        split
        · rename_i hv
          by_cases hx : x = a
          · simp [hx, hv, Memory.lookup_below hr (by omega : a < a + 1)]
          · simp only [Memory.lookup, if_neg hx, if_neg (Ne.symm hx)]
        · by_cases hx : x = a
          · simp [Memory.lookup, hx]
          · simp only [Memory.lookup, if_neg hx, if_neg (Ne.symm hx)]
      · rename_i hak
        simp only [Memory.lookup]
        split
        · rename_i hkx
          have hx : x ≠ a := by omega
          simp [hx]
        · exact ih hr

/-! ## Bytes and words -/

/-- A byte read after a byte write (R53, R54). -/
theorem Memory.read8_write8 {m : Memory} (hm : m.wf = true) (a x : Addr) (b : Byte) :
    (m.write8 a b).read8 x = if x = a then b else m.read8 x := by
  unfold Memory.read8 Memory.write8
  rw [Memory.lookup_insert (lo := 0) b hm]
  simp only [BitVec.toNat_inj]

/-- A byte write keeps the canonical form. -/
theorem Memory.wf_write8 {m : Memory} (hm : m.wf = true) (a : Addr) (b : Byte) : (m.write8 a b).wf = true :=
  Memory.wfFrom_insert b hm (Nat.zero_le _) a.isLt

/-- A word write keeps the canonical form. -/
theorem Memory.wf_write16 {m : Memory} (hm : m.wf = true) (a : Addr) (v : Word) : (m.write16 a v).wf = true :=
  Memory.wf_write8 (Memory.wf_write8 hm _ _) _ _

/-- Writing a run of bytes keeps the canonical form. -/
theorem Memory.wf_writeBytes {m : Memory} (hm : m.wf = true) (a : Addr) (bytes : List Byte) :
    (m.writeBytes a bytes).wf = true := by
  induction bytes generalizing m a with
  | nil => exact hm
  | cons b rest ih => exact ih (Memory.wf_write8 hm a b) (a + 1)

/-- A byte read after a word write: the high byte at `a + 1`, the low byte at `a` (R57, R59). -/
theorem Memory.read8_write16 {m : Memory} (hm : m.wf = true) (a x : Addr) (v : Word) :
    (m.write16 a v).read8 x =
      if x = a + 1 then v.extractLsb' 8 8 else if x = a then v.extractLsb' 0 8 else m.read8 x := by
  unfold Memory.write16
  rw [Memory.read8_write8 (Memory.wf_write8 hm _ _), Memory.read8_write8 hm]

/-- One more than an address, and `j` more, is `j + 1` more, mod 2^20. -/
theorem Addr.add_one_add (p : Addr) (j : Nat) : p + 1 + BitVec.ofNat 20 j = p + BitVec.ofNat 20 (j + 1) := by
  apply BitVec.eq_of_toNat_eq
  simp only [BitVec.toNat_add, BitVec.toNat_ofNat, show BitVec.toNat (1 : Addr) = 1 from rfl]
  omega

/-- Consecutive addresses differ, the wrap at 2^20 included. -/
theorem Addr.ne_add_one (a : Addr) : a ≠ a + 1 := by
  intro h
  have := congrArg BitVec.toNat h
  simp only [BitVec.toNat_add, show BitVec.toNat (1 : Addr) = 1 from rfl] at this
  omega

/-- A byte outside a run of written bytes reads as before. -/
theorem Memory.read8_writeBytes_outside {m : Memory} (hm : m.wf = true) (a x : Addr) (bytes : List Byte)
    (hx : ∀ k < bytes.length, x ≠ a + BitVec.ofNat 20 k) : (m.writeBytes a bytes).read8 x = m.read8 x := by
  induction bytes generalizing m a with
  | nil => rfl
  | cons b rest ih =>
    have hx0 : x ≠ a := by simpa using hx 0 (by simp)
    rw [Memory.writeBytes, ih (Memory.wf_write8 hm a b) (a + 1), Memory.read8_write8 hm, if_neg hx0]
    intro k hk hc
    exact hx (k + 1) (by simp; omega) (hc.trans (Addr.add_one_add a k))

/-- A written byte reads back unless a later byte of the run wrapped round onto it. -/
theorem Memory.read8_writeBytes_inside {m : Memory} (hm : m.wf = true) (a : Addr) (bytes : List Byte) (k : Nat)
    (hk : k < bytes.length)
    (hlast : ∀ j, k < j → j < bytes.length → a + BitVec.ofNat 20 j ≠ a + BitVec.ofNat 20 k) :
    (m.writeBytes a bytes).read8 (a + BitVec.ofNat 20 k) = bytes[k] := by
  induction bytes generalizing m a k with
  | nil => simp at hk
  | cons b rest ih =>
    cases k with
    | zero =>
      rw [Memory.writeBytes, Memory.read8_writeBytes_outside (Memory.wf_write8 hm a b),
        Memory.read8_write8 hm]
      · simp
      · intro j hj hc
        exact hlast (j + 1) (by omega) (by simp; omega) (by rw [← Addr.add_one_add, ← hc])
    | succ n =>
      rw [Memory.writeBytes, ← Addr.add_one_add]
      have hn : n < rest.length := by simpa using hk
      rw [ih (Memory.wf_write8 hm a b) (a + 1) n hn]
      · simp
      · intro j hj hj'
        rw [Addr.add_one_add, Addr.add_one_add]
        exact hlast (j + 1) (by omega) (by simp; omega)

/-- Two canonical memories that read alike are the same list. -/
theorem Memory.wfFrom_ext {lo : Nat} {m n : Memory} (hm : Memory.wfFrom lo m = true)
    (hn : Memory.wfFrom lo n = true) (h : ∀ a, m.lookup a = n.lookup a) : m = n := by
  induction m generalizing lo n with
  | nil =>
    cases n with
    | nil => rfl
    | cons c rest =>
      obtain ⟨k, b⟩ := c
      simp only [Memory.wfFrom, Bool.and_eq_true, decide_eq_true_eq] at hn
      have := h k
      simp only [Memory.lookup, if_true] at this
      exact absurd this.symm hn.1.2
  | cons c rest ih =>
    obtain ⟨k, b⟩ := c
    have hm' := hm
    simp only [Memory.wfFrom, Bool.and_eq_true, decide_eq_true_eq] at hm
    cases n with
    | nil =>
      have := h k
      simp only [Memory.lookup, if_true] at this
      exact absurd this hm.1.2
    | cons d rest' =>
      obtain ⟨k', b'⟩ := d
      simp only [Memory.wfFrom, Bool.and_eq_true, decide_eq_true_eq] at hn
      have hkk : k = k' := by
        rcases Nat.lt_trichotomy k k' with hlt | heq | hgt
        · have hk := h k
          have hne : k' ≠ k := by omega
          simp only [Memory.lookup, if_true, if_neg hne,
            Memory.lookup_below hn.2 (by omega : k < k' + 1)] at hk
          exact absurd hk hm.1.2
        · exact heq
        · have hk := h k'
          have hne : k ≠ k' := by omega
          simp only [Memory.lookup, if_true, if_neg hne,
            Memory.lookup_below hm.2 (by omega : k' < k + 1)] at hk
          exact absurd hk.symm hn.1.2
      subst hkk
      have hb : b = b' := by simpa [Memory.lookup] using h k
      subst hb
      rw [ih hm.2 hn.2 (n := rest')]
      intro a
      by_cases ha : k = a
      · subst ha
        rw [Memory.lookup_below hm.2 (by omega), Memory.lookup_below hn.2 (by omega)]
      · simpa [Memory.lookup, ha] using h a

/-! ## The string scan -/

/-- A scan that ends: the bytes before the terminator, none of them 0x00, and 0x00 at the terminator (R180). -/
theorem Memory.scanFor_some {m : Memory} {fuel : Nat} {p t : Addr} {bytes : List Byte}
    (h : m.scanFor fuel p = some (bytes, t)) :
    t = p + BitVec.ofNat 20 bytes.length ∧ m.read8 t = 0 ∧ (∀ b ∈ bytes, b ≠ 0) ∧
      ∀ k (hk : k < bytes.length), bytes[k] = m.read8 (p + BitVec.ofNat 20 k) := by
  induction fuel generalizing p bytes with
  | zero => simp [Memory.scanFor] at h
  | succ n ih =>
    unfold Memory.scanFor at h
    split at h
    · rename_i hz
      simp only [Option.some.injEq, Prod.mk.injEq] at h
      obtain ⟨rfl, rfl⟩ := h
      simp [hz]
    · rename_i hz
      split at h
      · simp at h
      · rename_i bs u hs
        simp only [Option.some.injEq, Prod.mk.injEq] at h
        obtain ⟨rfl, rfl⟩ := h
        obtain ⟨h1, h2, h3, h4⟩ := ih hs
        refine ⟨by rw [h1, Addr.add_one_add]; simp, h2, ?_, ?_⟩
        · intro b hb
          rcases List.mem_cons.mp hb with rfl | hb
          · exact hz
          · exact h3 b hb
        · intro k hk
          cases k with
          | zero => simp
          | succ j =>
            rw [← Addr.add_one_add, ← h4 j (by simpa using hk)]
            simp

/-- A scan finds a terminator that lies within its reach. -/
theorem Memory.scanFor_isSome {m : Memory} {fuel n : Nat} {p : Addr} (hn : n < fuel)
    (hz : m.read8 (p + BitVec.ofNat 20 n) = 0) : (m.scanFor fuel p).isSome = true := by
  induction fuel generalizing n p with
  | zero => omega
  | succ f ih =>
    unfold Memory.scanFor
    split
    · rfl
    · rename_i hp
      cases n with
      | zero => simp at hz; exact absurd hz hp
      | succ j =>
        rw [← Addr.add_one_add] at hz
        have := ih (by omega : j < f) hz
        cases hs : m.scanFor f (p + 1) with
        | none => rw [hs] at this; simp at this
        | some r => rfl

/-- A scan ends exactly when some byte of memory is 0x00 (R180, D15). -/
theorem Memory.scanString_isSome_iff (m : Memory) (a : Addr) :
    (m.scanString a).isSome = true ↔ ∃ x : Addr, m.read8 x = 0 := by
  constructor
  · intro h
    obtain ⟨⟨bytes, t⟩, hr⟩ := Option.isSome_iff_exists.mp h
    exact ⟨t, (Memory.scanFor_some hr).2.1⟩
  · rintro ⟨x, hx⟩
    refine Memory.scanFor_isSome (n := (x - a).toNat) (x - a).isLt ?_
    rw [BitVec.ofNat_toNat, BitVec.setWidth_eq, BitVec.add_comm, BitVec.sub_add_cancel]
    exact hx

end Sys2Proof.Machine
end

