-- ==== Sys2Proof/Laws/State.lean ====
section
/-! SUPPORT. What each update of the state does to each field: one lemma per field per update, and the register file's read after write. -/

namespace Sys2Proof.Machine

variable (s : State)

@[simp] theorem State.setReg_pc (i : RegIx) (v : Word) : (s.setReg i v).pc = s.pc := rfl
@[simp] theorem State.setReg_sp (i : RegIx) (v : Word) : (s.setReg i v).sp = s.sp := rfl
@[simp] theorem State.setReg_flags (i : RegIx) (v : Word) : (s.setReg i v).flags = s.flags := rfl
@[simp] theorem State.setReg_halted (i : RegIx) (v : Word) : (s.setReg i v).halted = s.halted := rfl
@[simp] theorem State.setReg_latches (i : RegIx) (v : Word) : (s.setReg i v).latches = s.latches := rfl
@[simp] theorem State.setReg_sr (i : RegIx) (v : Word) : (s.setReg i v).sr = s.sr := rfl
@[simp] theorem State.setReg_mem (i : RegIx) (v : Word) : (s.setReg i v).mem = s.mem := rfl
@[simp] theorem State.setReg_console (i : RegIx) (v : Word) : (s.setReg i v).console = s.console := rfl

@[simp] theorem State.setPc_regs (x : Addr) : (s.setPc x).regs = s.regs := rfl
@[simp] theorem State.setPc_pc (x : Addr) : (s.setPc x).pc = x := rfl
@[simp] theorem State.setPc_sp (x : Addr) : (s.setPc x).sp = s.sp := rfl
@[simp] theorem State.setPc_flags (x : Addr) : (s.setPc x).flags = s.flags := rfl
@[simp] theorem State.setPc_halted (x : Addr) : (s.setPc x).halted = s.halted := rfl
@[simp] theorem State.setPc_latches (x : Addr) : (s.setPc x).latches = s.latches := rfl
@[simp] theorem State.setPc_sr (x : Addr) : (s.setPc x).sr = s.sr := rfl
@[simp] theorem State.setPc_mem (x : Addr) : (s.setPc x).mem = s.mem := rfl
@[simp] theorem State.setPc_console (x : Addr) : (s.setPc x).console = s.console := rfl

@[simp] theorem State.setSp_regs (x : Addr) : (s.setSp x).regs = s.regs := rfl
@[simp] theorem State.setSp_pc (x : Addr) : (s.setSp x).pc = s.pc := rfl
@[simp] theorem State.setSp_sp (x : Addr) : (s.setSp x).sp = x := rfl
@[simp] theorem State.setSp_flags (x : Addr) : (s.setSp x).flags = s.flags := rfl
@[simp] theorem State.setSp_halted (x : Addr) : (s.setSp x).halted = s.halted := rfl
@[simp] theorem State.setSp_latches (x : Addr) : (s.setSp x).latches = s.latches := rfl
@[simp] theorem State.setSp_sr (x : Addr) : (s.setSp x).sr = s.sr := rfl
@[simp] theorem State.setSp_mem (x : Addr) : (s.setSp x).mem = s.mem := rfl
@[simp] theorem State.setSp_console (x : Addr) : (s.setSp x).console = s.console := rfl

@[simp] theorem State.setFlags_regs (x : Flags) : (s.setFlags x).regs = s.regs := rfl
@[simp] theorem State.setFlags_pc (x : Flags) : (s.setFlags x).pc = s.pc := rfl
@[simp] theorem State.setFlags_sp (x : Flags) : (s.setFlags x).sp = s.sp := rfl
@[simp] theorem State.setFlags_flags (x : Flags) : (s.setFlags x).flags = x := rfl
@[simp] theorem State.setFlags_halted (x : Flags) : (s.setFlags x).halted = s.halted := rfl
@[simp] theorem State.setFlags_latches (x : Flags) : (s.setFlags x).latches = s.latches := rfl
@[simp] theorem State.setFlags_sr (x : Flags) : (s.setFlags x).sr = s.sr := rfl
@[simp] theorem State.setFlags_mem (x : Flags) : (s.setFlags x).mem = s.mem := rfl
@[simp] theorem State.setFlags_console (x : Flags) : (s.setFlags x).console = s.console := rfl

@[simp] theorem State.setMem_regs (x : Memory) : (s.setMem x).regs = s.regs := rfl
@[simp] theorem State.setMem_pc (x : Memory) : (s.setMem x).pc = s.pc := rfl
@[simp] theorem State.setMem_sp (x : Memory) : (s.setMem x).sp = s.sp := rfl
@[simp] theorem State.setMem_flags (x : Memory) : (s.setMem x).flags = s.flags := rfl
@[simp] theorem State.setMem_halted (x : Memory) : (s.setMem x).halted = s.halted := rfl
@[simp] theorem State.setMem_latches (x : Memory) : (s.setMem x).latches = s.latches := rfl
@[simp] theorem State.setMem_sr (x : Memory) : (s.setMem x).sr = s.sr := rfl
@[simp] theorem State.setMem_mem (x : Memory) : (s.setMem x).mem = x := rfl
@[simp] theorem State.setMem_console (x : Memory) : (s.setMem x).console = s.console := rfl

@[simp] theorem State.setConsole_regs (x : Console) : (s.setConsole x).regs = s.regs := rfl
@[simp] theorem State.setConsole_pc (x : Console) : (s.setConsole x).pc = s.pc := rfl
@[simp] theorem State.setConsole_sp (x : Console) : (s.setConsole x).sp = s.sp := rfl
@[simp] theorem State.setConsole_flags (x : Console) : (s.setConsole x).flags = s.flags := rfl
@[simp] theorem State.setConsole_halted (x : Console) : (s.setConsole x).halted = s.halted := rfl
@[simp] theorem State.setConsole_latches (x : Console) : (s.setConsole x).latches = s.latches := rfl
@[simp] theorem State.setConsole_sr (x : Console) : (s.setConsole x).sr = s.sr := rfl
@[simp] theorem State.setConsole_mem (x : Console) : (s.setConsole x).mem = s.mem := rfl
@[simp] theorem State.setConsole_console (x : Console) : (s.setConsole x).console = x := rfl

@[simp] theorem State.raiseHalt_regs (c : HaltCause) (op : BitVec 4) : (s.raiseHalt c op).regs = s.regs := rfl
@[simp] theorem State.raiseHalt_pc (c : HaltCause) (op : BitVec 4) : (s.raiseHalt c op).pc = s.pc := rfl
@[simp] theorem State.raiseHalt_sp (c : HaltCause) (op : BitVec 4) : (s.raiseHalt c op).sp = s.sp := rfl
@[simp] theorem State.raiseHalt_flags (c : HaltCause) (op : BitVec 4) : (s.raiseHalt c op).flags = s.flags := rfl
@[simp] theorem State.raiseHalt_halted (c : HaltCause) (op : BitVec 4) : (s.raiseHalt c op).halted = true := rfl
@[simp] theorem State.raiseHalt_latches (c : HaltCause) (op : BitVec 4) : (s.raiseHalt c op).latches = { cause := c, op := op, addr := s.pc - 2 } := rfl
@[simp] theorem State.raiseHalt_sr (c : HaltCause) (op : BitVec 4) : (s.raiseHalt c op).sr = s.sr := rfl
@[simp] theorem State.raiseHalt_mem (c : HaltCause) (op : BitVec 4) : (s.raiseHalt c op).mem = s.mem := rfl
@[simp] theorem State.raiseHalt_console (c : HaltCause) (op : BitVec 4) : (s.raiseHalt c op).console = s.console := rfl

@[simp] theorem State.advance_regs : s.advance.regs = s.regs := rfl
@[simp] theorem State.advance_pc : s.advance.pc = s.pc + 2 := rfl
@[simp] theorem State.advance_sp : s.advance.sp = s.sp := rfl
@[simp] theorem State.advance_flags : s.advance.flags = s.flags := rfl
@[simp] theorem State.advance_halted : s.advance.halted = s.halted := rfl
@[simp] theorem State.advance_latches : s.advance.latches = s.latches := rfl
@[simp] theorem State.advance_sr : s.advance.sr = s.sr := rfl
@[simp] theorem State.advance_mem : s.advance.mem = s.mem := rfl
@[simp] theorem State.advance_console : s.advance.console = s.console := rfl

@[simp] theorem State.drop_regs : s.drop.regs = s.regs := rfl
@[simp] theorem State.drop_pc : s.drop.pc = s.pc := rfl
@[simp] theorem State.drop_sp : s.drop.sp = s.sp + 2 := rfl
@[simp] theorem State.drop_flags : s.drop.flags = s.flags := rfl
@[simp] theorem State.drop_halted : s.drop.halted = s.halted := rfl
@[simp] theorem State.drop_latches : s.drop.latches = s.latches := rfl
@[simp] theorem State.drop_sr : s.drop.sr = s.sr := rfl
@[simp] theorem State.drop_mem : s.drop.mem = s.mem := rfl
@[simp] theorem State.drop_console : s.drop.console = s.console := rfl

@[simp] theorem State.push_regs (v : Word) : (s.push v).regs = s.regs := rfl
@[simp] theorem State.push_pc (v : Word) : (s.push v).pc = s.pc := rfl
@[simp] theorem State.push_sp (v : Word) : (s.push v).sp = s.sp - 2 := rfl
@[simp] theorem State.push_flags (v : Word) : (s.push v).flags = s.flags := rfl
@[simp] theorem State.push_halted (v : Word) : (s.push v).halted = s.halted := rfl
@[simp] theorem State.push_latches (v : Word) : (s.push v).latches = s.latches := rfl
@[simp] theorem State.push_sr (v : Word) : (s.push v).sr = s.sr := rfl
@[simp] theorem State.push_mem (v : Word) : (s.push v).mem = s.mem.write16 (s.sp - 2) v := rfl
@[simp] theorem State.push_console (v : Word) : (s.push v).console = s.console := rfl

@[simp] theorem State.conOut_regs (e : ConEvent) : (s.conOut e).regs = s.regs := rfl
@[simp] theorem State.conOut_pc (e : ConEvent) : (s.conOut e).pc = s.pc := rfl
@[simp] theorem State.conOut_sp (e : ConEvent) : (s.conOut e).sp = s.sp := rfl
@[simp] theorem State.conOut_flags (e : ConEvent) : (s.conOut e).flags = s.flags := rfl
@[simp] theorem State.conOut_halted (e : ConEvent) : (s.conOut e).halted = s.halted := rfl
@[simp] theorem State.conOut_latches (e : ConEvent) : (s.conOut e).latches = s.latches := rfl
@[simp] theorem State.conOut_sr (e : ConEvent) : (s.conOut e).sr = s.sr := rfl
@[simp] theorem State.conOut_mem (e : ConEvent) : (s.conOut e).mem = s.mem := rfl
@[simp] theorem State.conOut_console (e : ConEvent) : (s.conOut e).console = { s.console with log := s.console.log ++ [e] } := rfl

@[simp] theorem State.writeResult_pc (i : RegIx) (v : Word) : (s.writeResult i v).pc = s.pc := rfl
@[simp] theorem State.writeResult_sp (i : RegIx) (v : Word) : (s.writeResult i v).sp = s.sp := rfl
@[simp] theorem State.writeResult_flags (i : RegIx) (v : Word) : (s.writeResult i v).flags = zs v s.flags := rfl
@[simp] theorem State.writeResult_halted (i : RegIx) (v : Word) : (s.writeResult i v).halted = s.halted := rfl
@[simp] theorem State.writeResult_latches (i : RegIx) (v : Word) : (s.writeResult i v).latches = s.latches := rfl
@[simp] theorem State.writeResult_sr (i : RegIx) (v : Word) : (s.writeResult i v).sr = s.sr := rfl
@[simp] theorem State.writeResult_mem (i : RegIx) (v : Word) : (s.writeResult i v).mem = s.mem := rfl
@[simp] theorem State.writeResult_console (i : RegIx) (v : Word) : (s.writeResult i v).console = s.console := rfl

@[simp] theorem State.writeAlu_pc (i : RegIx) (rf : Word × Flags) : (s.writeAlu i rf).pc = s.pc := rfl
@[simp] theorem State.writeAlu_sp (i : RegIx) (rf : Word × Flags) : (s.writeAlu i rf).sp = s.sp := rfl
@[simp] theorem State.writeAlu_flags (i : RegIx) (rf : Word × Flags) : (s.writeAlu i rf).flags = rf.2 := rfl
@[simp] theorem State.writeAlu_halted (i : RegIx) (rf : Word × Flags) : (s.writeAlu i rf).halted = s.halted := rfl
@[simp] theorem State.writeAlu_latches (i : RegIx) (rf : Word × Flags) : (s.writeAlu i rf).latches = s.latches := rfl
@[simp] theorem State.writeAlu_sr (i : RegIx) (rf : Word × Flags) : (s.writeAlu i rf).sr = s.sr := rfl
@[simp] theorem State.writeAlu_mem (i : RegIx) (rf : Word × Flags) : (s.writeAlu i rf).mem = s.mem := rfl
@[simp] theorem State.writeAlu_console (i : RegIx) (rf : Word × Flags) : (s.writeAlu i rf).console = s.console := rfl

/-- A register read after a register write (R11, R21): no register is hardwired, none aliases another. -/
@[simp] theorem State.reg_setReg (i r : RegIx) (v : Word) :
    (s.setReg i v).reg r = if r = i then v else s.reg r := by
  unfold State.reg State.setReg
  simp only [Vector.get_eq_getElem, Vector.getElem_set, Fin.ext_iff, eq_comm]

@[simp] theorem State.reg_setPc (r : RegIx) (x : Addr) : (s.setPc x).reg r = s.reg r := rfl
@[simp] theorem State.reg_setSp (r : RegIx) (x : Addr) : (s.setSp x).reg r = s.reg r := rfl
@[simp] theorem State.reg_setFlags (r : RegIx) (x : Flags) : (s.setFlags x).reg r = s.reg r := rfl
@[simp] theorem State.reg_setMem (r : RegIx) (x : Memory) : (s.setMem x).reg r = s.reg r := rfl
@[simp] theorem State.reg_setConsole (r : RegIx) (x : Console) : (s.setConsole x).reg r = s.reg r := rfl
@[simp] theorem State.reg_advance (r : RegIx) : s.advance.reg r = s.reg r := rfl
@[simp] theorem State.reg_drop (r : RegIx) : s.drop.reg r = s.reg r := rfl
@[simp] theorem State.reg_push (r : RegIx) (v : Word) : (s.push v).reg r = s.reg r := rfl
@[simp] theorem State.reg_conOut (r : RegIx) (e : ConEvent) : (s.conOut e).reg r = s.reg r := rfl
@[simp] theorem State.reg_raiseHalt (r : RegIx) (c : HaltCause) (op : BitVec 4) :
    (s.raiseHalt c op).reg r = s.reg r := rfl

@[simp] theorem State.reg_writeResult (i r : RegIx) (v : Word) :
    (s.writeResult i v).reg r = if r = i then v else s.reg r := by
  simp [State.writeResult]

@[simp] theorem State.reg_writeAlu (i r : RegIx) (rf : Word × Flags) :
    (s.writeAlu i rf).reg r = if r = i then rf.1 else s.reg r := by
  simp [State.writeAlu]

/-- Writing a register's own value changes nothing. -/
theorem State.setReg_self (i : RegIx) : s.setReg i (s.reg i) = s := by
  have h : s.regs.set i.val (s.reg i) i.isLt = s.regs := by
    ext k hk
    simp only [Vector.getElem_set, State.reg, Vector.get_eq_getElem]
    split <;> simp_all
  simp only [State.setReg, h]

end Sys2Proof.Machine
end

