-- ==== Sys2Proof/Laws/Ops.lean ====
section
/-! SUPPORT. One lemma per shared operation that says what it can do: the stack, the console port, the string output, the fetch. -/

namespace Sys2Proof.Machine

variable (s : State)

/-! ## The stack -/

/-- What Push(v) leaves in memory: v little-endian at sp − 2, every other byte as before (R160). -/
theorem State.push_read8 (hm : s.mem.wf = true) (v : Word) (a : Addr) :
    (s.push v).mem.read8 a =
      if a = s.sp - 2 + 1 then v.extractLsb' 8 8
      else if a = s.sp - 2 then v.extractLsb' 0 8 else s.mem.read8 a := by
  rw [State.push_mem, Memory.read8_write16 hm]

/-- A push keeps the canonical form of memory. -/
theorem State.push_wf (hm : s.mem.wf = true) (v : Word) : (s.push v).mem.wf = true := by
  rw [State.push_mem]
  exact Memory.wf_write16 hm _ _

/-- A word read where a word was written reads it back (R57). -/
theorem Memory.read16_write16 {m : Memory} (hm : m.wf = true) (a : Addr) (v : Word) :
    (m.write16 a v).read16 a = v := by
  unfold Memory.read16
  rw [Memory.read8_write16 hm, Memory.read8_write16 hm, if_pos rfl, if_neg (Addr.ne_add_one a), if_pos rfl]
  ext i hi
  simp only [BitVec.getElem_append, BitVec.getElem_extractLsb']
  split
  · simp [BitVec.getLsbD_eq_getElem (by omega : i < 16)]
  · rw [show 8 + (i - 8) = i by omega, BitVec.getLsbD_eq_getElem (by omega : i < 16)]

/-- Pop() after Push(v) returns v (R160, R161). -/
theorem State.top_push (hm : s.mem.wf = true) (v : Word) : (s.push v).top = v := by
  unfold State.top
  rw [State.push_mem, State.push_sp]
  exact Memory.read16_write16 hm _ _

/-- Pop() after Push(v) gives the sp back (R160, R161). -/
theorem State.drop_push_sp (v : Word) : (s.push v).drop.sp = s.sp := by
  simp

/-- The two words of a return address join to it (R164, R165). -/
theorem retJoin_retHigh_retLow (ret : Addr) : retJoin (retHigh ret) (retLow ret) = ret := by
  unfold retJoin retHigh retLow
  ext i hi
  simp only [BitVec.getElem_append, BitVec.getElem_extractLsb', BitVec.getLsbD_setWidth,
    BitVec.getLsbD_extractLsb']
  split
  · simp [BitVec.getLsbD_eq_getElem hi]
  · have h4 : i - 16 < 4 := by omega
    have h16 : i - 16 < 16 := by omega
    simp [h4, h16, show 16 + (i - 16) = i by omega, BitVec.getLsbD_eq_getElem hi]

/-! ## The console port -/

/-- Where an answer comes from (R182): the answers held ready, the oracle, or the end of input (D13); a silent
console gives none. -/
theorem Console.answer_cases (c : Console) :
    (∃ a rest, c.pending = a :: rest ∧ c.answer = some (a, { c with pending := rest })) ∨
    (c.pending = [] ∧ c.rest = .oracle ∧
      c.answer = some (Config.conOracle c.draws, { c with draws := c.draws + 1 })) ∨
    (c.pending = [] ∧ c.rest = .endOfInput ∧ c.answer = some ({ line := [], int := .malformed }, c)) ∨
    (c.pending = [] ∧ c.rest = .silent ∧ c.answer = none) := by
  unfold Console.answer
  cases hp : c.pending with
  | cons a rest => exact .inl ⟨a, rest, rfl, rfl⟩
  | nil => cases hr : c.rest <;> simp

/-- An answer changes no event of the history. -/
theorem Console.answer_log {c c' : Console} {a : ConAnswer} (h : c.answer = some (a, c')) : c'.log = c.log := by
  rcases c.answer_cases with ⟨b, rest, -, h'⟩ | ⟨-, -, h'⟩ | ⟨-, -, h'⟩ | ⟨-, -, h'⟩ <;>
    rw [h'] at h <;> simp at h <;> obtain ⟨-, rfl⟩ := h <;> rfl

/-- A request that is answered: the answer, and a state that differs in the console only, its history one
request longer (R182). -/
theorem State.conIn_some {s t : State} {kind : ConKind} {a : ConAnswer} (h : s.conIn kind = some (a, t)) :
    ∃ c, s.console.answer = some (a, c) ∧
      t = s.setConsole { c with log := s.console.log ++ [.conIn kind] } := by
  unfold State.conIn at h
  split at h
  · simp at h
  · rename_i b c hc
    simp only [Option.some.injEq, Prod.mk.injEq] at h
    obtain ⟨rfl, rfl⟩ := h
    refine ⟨c, hc, ?_⟩
    rw [← Console.answer_log hc]
    rfl

/-- A request that is not answered. -/
theorem State.conIn_none_iff (kind : ConKind) : s.conIn kind = none ↔ s.console.answer = none := by
  unfold State.conIn
  cases s.console.answer with
  | none => simp
  | some p => simp

/-- A numeric read, its two outcomes (R178). -/
theorem State.readInt_cases (i : RegIx) :
    (s.readInt i = .fault .stdinUnanswered ∧ s.console.answer = none) ∨
    ∃ ans c, s.console.answer = some (ans, c) ∧
      s.readInt i = .next (((s.setConsole { c with log := s.console.log ++ [.conIn .int] }).setReg i
        (ans.int.reg (s.reg i))).setFlags (ans.int.flags s.flags)) := by
  unfold State.readInt
  cases h : s.conIn .int with
  | none => exact .inl ⟨rfl, (s.conIn_none_iff .int).mp h⟩
  | some p =>
    obtain ⟨ans, t⟩ := p
    obtain ⟨c, hc, rfl⟩ := State.conIn_some h
    exact .inr ⟨ans, c, hc, rfl⟩

/-- Emitting a string, its two outcomes (R180): one event and the terminator's address, or a scan that never
ends because no byte of memory is 0x00. -/
theorem State.emitString_cases (a : Addr) (k : Addr → State → State) :
    (s.emitString a k = .fault .scanNeverEnds ∧ ∀ x : Addr, s.mem.read8 x ≠ 0) ∨
    ∃ bytes t, s.mem.scanString a = some (bytes, t) ∧
      s.emitString a k = .next (k t (s.conOut (.outStr bytes))) := by
  unfold State.emitString
  cases h : s.mem.scanString a with
  | none =>
    refine .inl ⟨rfl, fun x hx => ?_⟩
    have := (Memory.scanString_isSome_iff s.mem a).mpr ⟨x, hx⟩
    simp [h] at this
  | some p => exact .inr ⟨p.1, p.2, rfl, rfl⟩

/-! ## The step -/

/-- A running core's step is its instruction's meaning after the advance (R110). -/
theorem step_running {s : State} (h : s.halted = false) : step s = exec s.fetchInstr s.advance := by
  simp [step, h]

/-- A halted core's step gives the state back (R116). -/
theorem step_halted {s : State} (h : s.halted = true) : step s = .next s := by
  simp [step, h, State.haltedStep]

end Sys2Proof.Machine
end

