-- ==== Sys2Proof/Laws/PerInstr.lean ====
section
/-! SUPPORT. Per-instruction families. EncodeFitsRow: the encoder's word lies in the instruction's row of the opcode table. -/

namespace Sys2Proof.Laws.EncodeFitsRow

/-- The canonical word of a well-formed instruction has the fixed bits of its opcode-table row (R89, R95). -/
def Statement (i : Instr) : Prop := i.WellFormed = true → encodeWord i &&& i.row.mask = i.row.value

theorem halt : Statement .halt := fun _ => by decide

theorem nop : Statement .nop := fun _ => by decide

theorem mov (dst src : RegIx) : Statement (.mov dst src) := by unfold Statement; revert dst src; decide

theorem movi (dst : RegIx) (imm9 : BitVec 9) : Statement (.movi dst imm9) := by
  intro _
  have h : ∀ dst : RegIx, (0x3#4 ++ regBits dst) &&& 0x78#7 = 0x18#7 := by decide
  show (0x3#4 ++ regBits dst ++ imm9) &&& (0x78#7 ++ 0#9) = 0x18#7 ++ 0#9
  rw [BitVec.and_append, h, BitVec.and_zero]

theorem cmp (dst src : RegIx) : Statement (.cmp dst src) := by unfold Statement; revert dst src; decide

theorem jmp (dst : RegIx) : Statement (.jmp dst) := by unfold Statement; revert dst; decide

theorem jz (dst : RegIx) : Statement (.jz dst) := by unfold Statement; revert dst; decide

theorem jnz (dst : RegIx) : Statement (.jnz dst) := by unfold Statement; revert dst; decide

theorem push (dst : RegIx) : Statement (.push dst) := by unfold Statement; revert dst; decide

theorem pop (dst : RegIx) : Statement (.pop dst) := by unfold Statement; revert dst; decide

theorem call (dst : RegIx) : Statement (.call dst) := by unfold Statement; revert dst; decide

theorem stdoutStr : Statement .stdoutStr := fun _ => by decide

theorem stdoutInt (src : RegIx) : Statement (.stdoutInt src) := by unfold Statement; revert src; decide

theorem stdoutPstr (src : RegIx) : Statement (.stdoutPstr src) := by unfold Statement; revert src; decide

theorem stdoutChr (src : RegIx) : Statement (.stdoutChr src) := by unfold Statement; revert src; decide

theorem stdoutRsvd (mode : BitVec 3) : Statement (.stdoutRsvd mode) := by unfold Statement; revert mode; decide

theorem stdinLine (src : RegIx) : Statement (.stdinLine src) := by unfold Statement; revert src; decide

theorem stdinInt (src : RegIx) : Statement (.stdinInt src) := by unfold Statement; revert src; decide

theorem stdinIntAlt23 (mode : BitVec 3) (src : RegIx) : Statement (.stdinIntAlt23 mode src) := by unfold Statement; revert mode src; decide

theorem stdinIntAlt47 (mode : BitVec 3) (src : RegIx) : Statement (.stdinIntAlt47 mode src) := by unfold Statement; revert mode src; decide

theorem ret : Statement .ret := fun _ => by decide

theorem load (reg1 reg2 : RegIx) : Statement (.load reg1 reg2) := by unfold Statement; revert reg1 reg2; decide

theorem store (reg1 reg2 : RegIx) : Statement (.store reg1 reg2) := by unfold Statement; revert reg1 reg2; decide

theorem add (reg1 reg2 : RegIx) : Statement (.add reg1 reg2) := by unfold Statement; revert reg1 reg2; decide

theorem sub (reg1 reg2 : RegIx) : Statement (.sub reg1 reg2) := by unfold Statement; revert reg1 reg2; decide

theorem and (reg1 reg2 : RegIx) : Statement (.and reg1 reg2) := by unfold Statement; revert reg1 reg2; decide

theorem or (reg1 reg2 : RegIx) : Statement (.or reg1 reg2) := by unfold Statement; revert reg1 reg2; decide

theorem xor (reg1 reg2 : RegIx) : Statement (.xor reg1 reg2) := by unfold Statement; revert reg1 reg2; decide

theorem illegal (op : BitVec 4) : Statement (.illegal op) := by unfold Statement; revert op; decide

end Sys2Proof.Laws.EncodeFitsRow
end

