-- ==== Sys2Proof/Laws/Values.lean ====
section
/-! SUPPORT. The values of operands, words and flags as numbers. -/

namespace Sys2Proof.Machine

/-- Bit 15 of a 16-bit result is its most significant bit (R31). -/
theorem getLsbD_fifteen (v : Word) : v.getLsbD 15 = v.msb := by
  rw [BitVec.msb_eq_getLsbD_last]

/-- Bit 15 is set from 0x8000 up (R10). -/
theorem getLsbD_fifteen_eq (v : Word) : v.getLsbD 15 = decide (0x8000 ≤ v.toNat) := by
  have := v.isLt
  rw [BitVec.getLsbD, Nat.testBit_eq_decide_div_mod_eq]
  congr 1
  apply propext
  omega

/-- ZS(r) sets Z and S from r and keeps C and V (R120). -/
theorem zeroSignOf_zs (v : Word) (f : Flags) : ZeroSignOf v f (zs v f) :=
  ⟨rfl, getLsbD_fifteen_eq v, rfl, rfl⟩

/-- An address formed from a register is the register's value (R11, R28). -/
@[simp] theorem State.regAddr_toNat (s : State) (r : RegIx) : (s.regAddr r).toNat = (s.reg r).toNat := by
  have := (s.reg r).isLt
  simp only [State.regAddr, zext20, BitVec.toNat_setWidth]
  omega

/-- A word of memory is its low byte plus 256 times its high byte (R55). -/
theorem Memory.read16_toNat (m : Memory) (a : Addr) :
    (m.read16 a).toNat = (m.read8 a).toNat + 256 * (m.read8 (a + 1)).toNat := by
  unfold Memory.read16
  rw [BitVec.toNat_append, ← Nat.shiftLeft_add_eq_or_of_lt (m.read8 a).isLt, Nat.shiftLeft_eq]
  omega

/-- The low byte of a word (R57). -/
theorem extract_low_toNat (v : Word) : (v.extractLsb' 0 8).toNat = v.toNat % 256 := by simp

/-- The high byte of a word (R57). -/
theorem extract_high_toNat (v : Word) : (v.extractLsb' 8 8).toNat = v.toNat / 256 := by
  have := v.isLt
  simp only [BitVec.extractLsb'_toNat, Nat.shiftRight_eq_div_pow]
  omega

/-- A return address joined from two words (R165). -/
theorem retJoin_toNat (hi lo : Word) : (retJoin hi lo).toNat = hi.toNat % 16 * 65536 + lo.toNat := by
  unfold retJoin
  rw [BitVec.toNat_append, ← Nat.shiftLeft_add_eq_or_of_lt lo.isLt, Nat.shiftLeft_eq]
  simp

/-- SubALU's result is the difference mod 2^16 (R122). -/
theorem subAlu_result (a b : Word) (w : Bool) (f : Flags) : (subAlu a b w f).1 = a - b := by
  apply BitVec.eq_of_toNat_eq
  simp only [subAlu, BitVec.toNat_ofNat, BitVec.toNat_sub]
  have := a.isLt
  have := b.isLt
  omega

end Sys2Proof.Machine
end

