-- ==== Sys2Proof/Tests/Slice0.lean ====
section
/-! SUPPORT. Tests. Expected results come from the spec's examples and vectors (95_test_vectors.md), named in each comment; and the witnesses of the statements' hypotheses. -/

namespace Sys2Proof.Tests

open Sys2Proof.Machine

/-! ## WellFormed refuses what is no instruction (R91, R175, R176) -/

theorem test_rsvd_mode3_refused : (Instr.stdoutRsvd 3).WellFormed = false := by decide
theorem test_alt23_mode1_refused : (Instr.stdinIntAlt23 1 0).WellFormed = false := by decide
theorem test_alt23_mode4_refused : (Instr.stdinIntAlt23 4 0).WellFormed = false := by decide
theorem test_alt47_mode3_refused : (Instr.stdinIntAlt47 3 0).WellFormed = false := by decide
theorem test_illegal_op13_refused : (Instr.illegal 0xD).WellFormed = false := by decide

/-! ## Decoding: a word of every row, written bit by bit from R89's pattern, unused bits not all 0 -/

theorem test_decode_halt : decodeWord 0b0000_101_010_111100 = .halt := by decide
theorem test_decode_nop : decodeWord 0b0001_111_111_111111 = .nop := by decide
theorem test_decode_mov : decodeWord 0b0010_001_011_000000 = .mov 1 3 := by decide
theorem test_decode_movi : decodeWord 0b0011_010_100000001 = .movi 2 0x101 := by decide
theorem test_decode_cmp : decodeWord 0b0100_110_001_010101 = .cmp 6 1 := by decide
theorem test_decode_jmp : decodeWord 0b0101_100_000_000000 = .jmp 4 := by decide
theorem test_decode_jz : decodeWord 0b0110_010_111_000000 = .jz 2 := by decide
theorem test_decode_jnz : decodeWord 0b0111_011_000_000001 = .jnz 3 := by decide
theorem test_decode_push : decodeWord 0b1000_001_000_000000 = .push 1 := by decide
theorem test_decode_pop : decodeWord 0b1001_100_000_000000 = .pop 4 := by decide
theorem test_decode_call : decodeWord 0b1010_101_000_000000 = .call 5 := by decide
theorem test_decode_stdoutStr : decodeWord 0b1011_000_110_000000 = .stdoutStr := by decide
theorem test_decode_stdoutInt : decodeWord 0b1011_001_110_000000 = .stdoutInt 6 := by decide
theorem test_decode_stdoutPstr : decodeWord 0b1011_010_010_000000 = .stdoutPstr 2 := by decide
theorem test_decode_stdoutChr : decodeWord 0b1011_011_001_000000 = .stdoutChr 1 := by decide
theorem test_decode_stdoutRsvd : decodeWord 0b1011_101_000_000000 = .stdoutRsvd 5 := by decide
theorem test_decode_stdinLine : decodeWord 0b1100_000_011_000000 = .stdinLine 3 := by decide
theorem test_decode_stdinInt : decodeWord 0b1100_001_111_000000 = .stdinInt 7 := by decide
theorem test_decode_stdinIntAlt23 : decodeWord 0b1100_011_000_000000 = .stdinIntAlt23 3 0 := by decide
theorem test_decode_stdinIntAlt47 : decodeWord 0b1100_110_101_000000 = .stdinIntAlt47 6 5 := by decide
theorem test_decode_ret : decodeWord 0b1101_000_111_101_011 = .ret := by decide
theorem test_decode_load : decodeWord 0b1101_001_011_010_000 = .load 3 2 := by decide
theorem test_decode_store : decodeWord 0b1101_010_010_001_000 = .store 2 1 := by decide
theorem test_decode_add : decodeWord 0b1101_011_000_001_000 = .add 0 1 := by decide
theorem test_decode_sub : decodeWord 0b1101_100_100_111_000 = .sub 4 7 := by decide
theorem test_decode_and : decodeWord 0b1101_101_001_000_101 = .and 1 0 := by decide
theorem test_decode_or : decodeWord 0b1101_110_110_011_000 = .or 6 3 := by decide
theorem test_decode_xor : decodeWord 0b1101_111_101_100_000 = .xor 5 4 := by decide
theorem test_decode_illegal_E : decodeWord 0b1110_000_000_000000 = .illegal 0xE := by decide
theorem test_decode_illegal_F : decodeWord 0b1111_000_100_100011 = .illegal 0xF := by decide
/-- R58: the byte at the lower address holds bits 7 to 0. -/
theorem test_decode_bytes : decode [0x08, 0xD6, 0x77] = .ok (.add 0 1, [0x77]) := by decide
theorem test_decode_truncated : decode [0x08] = .error .truncated := by decide
/-- R95's examples: MOVI R1,10 = 0x320A, EXT_ADD R0,R1 = 0xD608. -/
theorem test_encode_movi : encodeWord (.movi 1 10) = 0x320A := by decide
theorem test_encode_add : encodeWord (.add 0 1) = 0xD608 := by decide
/-- L2-IO-7: STDOUT 5 = 0xBA00; L2-IO-14: STDIN 3,R0 = 0xC600. -/
theorem test_encode_rsvd : encodeWord (.stdoutRsvd 5) = 0xBA00 := by decide
theorem test_encode_alt : encodeWord (.stdinIntAlt23 3 0) = 0xC600 := by decide

/-! ## One step on a small state -/

/-- The reset state with the word `w` at the address `a` and the pc there. -/
def at' (a : Addr) (w : Nat) : State := (State.reset.setPc a).withFetchWord 16 w

/-- A value of the next state, if there is one. -/
def after {α : Type} (o : Host.Outcome State Fault Refusal) (f : State → α) : Option α :=
  match o with
  | .next t => some (f t)
  | .fault _ => none
  | .refused _ => none

/-- The reset state with memory bytes from an address up. -/
def withBytes (s : State) (a : Addr) (bytes : List Byte) : State := s.setMem (s.mem.writeBytes a bytes)

/-- The flags Z S C V. -/
def fl (z s c v : Bool) : Flags := { z := z, s := s, c := c, v := v }

/-- L2-ENG-2. -/
theorem test_halt : after (step (at' 0x6 0x0ABC)) (fun t => (t.halted, t.latches, t.pc)) =
    some (true, ⟨.haltInstr, 0, 0x6⟩, 0x8) := by decide
/-- L2-ENG-8: the high byte of the word at 0xFFFFF comes from 0x00000. -/
theorem test_nop_wrapped_fetch : step (at' 0xFFFFF 0x1000) = .next { at' 0xFFFFF 0x1000 with pc := 0x00001 } := by
  rfl
/-- L2-ENG-5. -/
theorem test_illegal : after (step (at' 0x20 0xF123)) (fun t => (t.halted, t.latches, t.pc)) =
    some (true, ⟨.illegalOpcode, 0xF, 0x20⟩, 0x22) := by decide
/-- L2-ENG-6. -/
theorem test_halted_step : step { State.reset with halted := true } = .next { State.reset with halted := true } := by
  rfl
/-- L2-MOV-1. -/
theorem test_mov : after (step (((at' 0x100 0x22C0).setReg 3 0x8001).setFlags (fl true false true true)))
    (fun t => (t.reg 1, t.flags, t.pc)) = some (0x8001, fl false true true true, 0x102) := by decide
/-- L2-MOV-6: MOVI R2,−256. -/
theorem test_movi : after (step (at' 0x100 0x3500)) (fun t => (t.reg 2, t.flags)) =
    some (0xFF00, fl false true false false) := by decide
/-- L2-CMP-3: V is kept, where a SUB would set it. -/
theorem test_cmp : after (step ((((at' 0x100 0x4040).setReg 0 0x8000).setReg 1 0x0001).setFlags
    (fl true true true true))) (fun t => (t.reg 0, t.flags)) = some (0x8000, fl false false false true) := by decide
/-- L2-CMP-2. -/
theorem test_cmp_borrow : after (step ((at' 0x100 0x4040).setReg 1 0x0001)) (fun t => t.flags) =
    some (fl false true true false) := by decide
/-- L2-JMP-2: bits 19 to 16 of the pc are cleared. -/
theorem test_jmp : after (step ((at' 0x12344 0x5000).setReg 0 0x0002)) (fun t => t.pc) = some 0x00002 := by decide
/-- L2-JMP-9: only Z matters. -/
theorem test_jz_not_taken : after (step (((at' 0x30 0x6400).setReg 2 0x0006).setFlags (fl false true true true)))
    (fun t => t.pc) = some 0x00032 := by decide
/-- L2-JMP-5. -/
theorem test_jz_taken : after (step (((at' 0x30 0x6400).setReg 2 0x0014).setFlags (fl true false false false)))
    (fun t => t.pc) = some 0x00014 := by decide
/-- L2-JMP-7 and L2-JMP-8. -/
theorem test_jnz : after (step ((at' 0x30 0x7400).setReg 2 0x0006)) (fun t => t.pc) = some 0x00006 ∧
    after (step (((at' 0x30 0x7400).setReg 2 0x0006).setFlags (fl true false false false))) (fun t => t.pc) =
      some 0x00032 := by decide
/-- L2-STK-3: a push at sp 0. -/
theorem test_push : after (step (((at' 0x100 0x8000).setReg 0 0x1234).setSp 0))
    (fun t => (t.sp, t.mem.read8 0xFFFFE, t.mem.read8 0xFFFFF)) = some (0xFFFFE, 0x34, 0x12) := by decide
/-- L2-STK-4: a pop at sp 0xFFFFE. -/
theorem test_pop : after (step (withBytes (at' 0x100 0x9000) 0xFFFFE [0x34, 0x12]))
    (fun t => (t.reg 0, t.sp, t.flags)) = some (0x1234, 0x00000, fl false false false false) := by decide
/-- L2-STK-6. -/
theorem test_call : after (step ((at' 0x12344 0xAA00).setReg 5 0x0100))
    (fun t => (t.mem.read16 0xFFFFC, t.mem.read16 0xFFFFA, t.sp, t.pc)) =
      some (0x2346, 0x0001, 0xFFFFA, 0x00100) := by decide
/-- L2-STK-9: the high word's upper bits are dropped. -/
theorem test_ret : after (step ((withBytes (at' 0x100 0xD000) 0xFFFFA [0xF3, 0xFF, 0x10, 0x00]).setSp 0xFFFFA))
    (fun t => (t.pc, t.sp)) = some (0x30010, 0xFFFFE) := by decide
/-- L2-EXT-2: no wrap at 16 bits. -/
theorem test_load : after (step (withBytes ((at' 0x100 0xD2D0).setReg 2 0xFFFF) 0x0FFFF [0x34, 0x12]))
    (fun t => (t.reg 3, t.flags)) = some (0x1234, fl false false false false) := by decide
/-- L2-EXT-8. -/
theorem test_store : after (step (((at' 0x100 0xD528).setReg 4 0xFFFF).setReg 5 0xA55A))
    (fun t => (t.mem.read8 0x0FFFF, t.mem.read8 0x10000)) = some (0x5A, 0xA5) := by decide
/-- L2-ALU-2 (L1-4): V without C. -/
theorem test_add : after (step (((at' 0x100 0xD608).setReg 0 0x7FFF).setReg 1 0x7FFF))
    (fun t => (t.reg 0, t.flags)) = some (0xFFFE, fl false true false true) := by decide
/-- L2-ALU-4. -/
theorem test_add_carry : after (step (((at' 0x100 0xD608).setReg 0 0x8000).setReg 1 0x8000))
    (fun t => (t.reg 0, t.flags)) = some (0x0000, fl true false true true) := by decide
/-- L2-ALU-9 (L1-5). -/
theorem test_sub : after (step (((at' 0x100 0xD808).setReg 0 5).setReg 1 10))
    (fun t => (t.reg 0, t.flags)) = some (0xFFFB, fl false true true false) := by decide
/-- L2-ALU-10. -/
theorem test_sub_overflow : after (step (((at' 0x100 0xD808).setReg 0 0x8000).setReg 1 1))
    (fun t => (t.reg 0, t.flags)) = some (0x7FFF, fl false false false true) := by decide
/-- L2-ALU-16: C and V are kept. -/
theorem test_and : after (step ((((at' 0x100 0xDA08).setReg 0 0xF0F0).setReg 1 0x0FF0).setFlags
    (fl false false true true))) (fun t => (t.reg 0, t.flags)) = some (0x00F0, fl false false true true) := by decide
/-- L2-ALU-18. -/
theorem test_or : after (step ((((at' 0x100 0xDC08).setReg 0 0xF0F0).setReg 1 0x0FF0).setFlags
    (fl false false true false))) (fun t => (t.reg 0, t.flags)) = some (0xFFF0, fl false true true false) := by decide
/-- L2-ALU-21: source and destination the same. -/
theorem test_xor : after (step (((at' 0x100 0xDF68).setReg 5 0x1234).setFlags (fl false false true true)))
    (fun t => (t.reg 5, t.flags)) = some (0x0000, fl true false true true) := by decide
/-- L2-IO-15: the scan ends at the top byte and the pc wraps. -/
theorem test_stdoutStr_wrap : after (step (withBytes (at' 0xFFFFC 0xB000) 0xFFFFE [0x07, 0x00]))
    (fun t => (t.console.log, t.pc)) = some ([.outStr [0x07]], 0x00000) := by decide
/-- L2-IO-17: an odd A. -/
theorem test_stdoutStr_odd : after (step (withBytes (at' 0x00001 0xB000) 0x00003 [0x0B, 0x00]))
    (fun t => (t.console.log, t.pc)) = some ([.outStr [0x0B]], 0x00006) := by decide
/-- L2-IO-5. -/
theorem test_stdoutInt : after (step ((at' 0x100 0xB200).setReg 0 0x8000)) (fun t => t.console.log) =
    some [.outInt (-32768)] := by decide
/-- L2-IO-16: the string runs past 0x0FFFF. -/
theorem test_stdoutPstr : after (step (withBytes ((at' 0x100 0xB480).setReg 2 0xFFFF) 0x0FFFF [0x05]))
    (fun t => (t.console.log, t.pc)) = some ([.outStr [0x05]], 0x00102) := by decide
/-- L2-IO-6. -/
theorem test_stdoutChr : after (step ((at' 0x100 0xB640).setReg 1 0x1241)) (fun t => t.console.log) =
    some [.outChar 0x41] := by decide
/-- L2-IO-7. -/
theorem test_stdoutRsvd : step (at' 0x20 0xBA00) = .next { at' 0x20 0xBA00 with pc := 0x22 } := by rfl
/-- L2-IO-8. -/
theorem test_stdinLine : after (step (((at' 0x100 0xC0C0).setReg 3 0x0200).consoleProvide ⟨[0x61, 0x62, 0x63], .malformed⟩))
    (fun t => (t.mem.read16 0x200, t.mem.read16 0x202, t.console.log)) =
      some (0x6261, 0x0063, [.conIn .line]) := by decide
/-- L2-IO-10. -/
theorem test_stdinInt : after (step ((at' 0x100 0xC200).consoleProvide ⟨[], .int 70000⟩))
    (fun t => (t.reg 0, t.flags, t.console.log)) = some (0x1170, fl false false false false, [.conIn .int]) := by decide
/-- L2-IO-13: malformed input changes no register and no flag. -/
theorem test_stdinInt_malformed : after (step ((((at' 0x100 0xC200).setReg 0 0x1234).setFlags
    (fl false false true true)).consoleProvide ⟨[], .malformed⟩)) (fun t => (t.reg 0, t.flags)) =
      some (0x1234, fl false false true true) := by decide
/-- L2-IO-11, in mode 3. -/
theorem test_stdinIntAlt23 : after (step ((at' 0x100 0xC600).consoleProvide ⟨[], .int (-5)⟩))
    (fun t => (t.reg 0, t.flags)) = some (0xFFFB, fl false true false false) := by decide
/-- L2-IO-12, in mode 7. -/
theorem test_stdinIntAlt47 : after (step ((at' 0x100 0xCE00).consoleProvide ⟨[], .int 65536⟩))
    (fun t => (t.reg 0, t.flags)) = some (0x0000, fl true false false false) := by decide
/-- From reset, with nothing held ready, STDIN completes on a free answer: the pc, which no answer moves. -/
theorem test_stdin_free_answer : after (step (at' 0x100 0xC200)) (fun t => (t.pc, t.console.draws)) =
    some (0x102, 1) := by decide
/-- R36, R211: the numeric cause codes. -/
theorem test_cause_codes : HaltCause.none.code = 0 ∧ HaltCause.haltInstr.code = 1 ∧
    HaltCause.illegalOpcode.code = 2 ∧ HaltCause.illegalExt.code = 3 := by decide

/-! ## The host port -/

/-- L2-MEM-4: the 20-bit read across the top of memory. -/
theorem test_read20 : (((State.reset.hostWriteByte 0xFFFFE 0x01).hostWriteByte 0xFFFFF 0x02).hostWriteByte 0 0x13).hostReadAddr20
    0xFFFFE = 0x30201 := by decide
/-- L2-MEM-1, L2-MEM-5: word and byte writes at wrapped addresses. -/
theorem test_host_writes : (State.reset.hostWriteWord16 0xFFFFF 0xABCD).mem = [(0, 0xAB), (0xFFFFF, 0xCD)] ∧
    (State.reset.hostWriteByte 0x123456 0x77).mem = [(0x23456, 0x77)] := by decide
/-- L2-ENG-10: empty memory halts at the first step. -/
theorem test_run_empty_memory : after (State.reset.hostRun 3) (fun t => (t.latches, t.pc)) =
    some (⟨.haltInstr, 0, 0⟩, 0x2) := by decide
/-- R34: V C S Z in bits 3 to 0. -/
theorem test_flags_byte : (fl true false true false).toByte = 0b0101 := by decide
/-- R37: the segment registers round-trip through the host. -/
theorem test_sr_round_trip : (State.reset.hostLoadSr #v[1, 2, 3, 4]).hostSaveSr = #v[1, 2, 3, 4] := by decide
/-- R221, R240, R181: the dump is the state's own values; reset clears the core and keeps the console; requests
are no output. -/
theorem test_dump_reset_output : (State.reset.setPc 5).dump.pc = 5 ∧ ((State.reset.setPc 5).hostReset).pc = 0 ∧
    (State.reset.conOut (.outChar 1)).hostReset.console.log = [.outChar 1] ∧
    ((State.reset.conOut (.conIn .int)).conOut (.outChar 1)).console.output = [.outChar 1] := by decide

/-! ## Witnesses: a state and operands that meet the hypotheses of each statement that has some -/

theorem witness_DecodeReadsBackEveryEncoding : (Instr.illegal 0xF).WellFormed = true ∧
    (Instr.stdoutRsvd 7).WellFormed = true ∧ (Instr.stdinIntAlt23 2 7).WellFormed = true ∧
    (Instr.stdinIntAlt47 4 0).WellFormed = true := by decide
theorem witness_UnusedBitsAreIgnored : (0x2040 : Word) &&& (decodeWord 0x2040).readMask =
    0x2047 &&& (decodeWord 0x2040).readMask ∧ (0x2040 : Word) ≠ 0x2047 := by decide
theorem witness_EveryWordLiesInItsTableRowAlone : (0xD608 : Word) &&& (Instr.add 7 7).row.mask = (Instr.add 7 7).row.value := by
  decide
theorem witness_IllegalWordsAreThoseFromE000 : 0xE000 ≤ (0xE000 : Word).toNat ∧ 0xE000 ≤ (0xFFFF : Word).toNat := by
  decide
theorem witness_StepRunsTheInstructionAtThePc : (at' 0xFFFFF 0xD608).halted = false ∧
    decode [(at' 0xFFFFF 0xD608).mem.read8 0xFFFFF, (at' 0xFFFFF 0xD608).mem.read8 (0xFFFFF + 1)] =
      .ok (.add 0 1, []) := by decide
theorem witness_LoadedInstructionRunsNext : (at' 0xFFFFF 0x1000).halted = false ∧ (at' 0xFFFFF 0x1000).mem.wf = true ∧
    (Instr.ret).WellFormed = true := by decide
theorem witness_HaltedCoreStaysAsItIs : (State.reset.raiseHalt .haltInstr 0).halted = true := by decide
theorem witness_NopOnlyAdvancesThePc : (at' 0 0x1FFF).halted = false ∧ (at' 0 0x1FFF).fetchWord.toNat / 4096 = 1 := by
  decide
theorem witness_ReservedStdoutModesOnlyAdvanceThePc : (at' 0 0xBFFF).halted = false ∧
    (at' 0 0xBFFF).fetchWord.toNat / 2048 = 0b10111 := by decide
theorem witness_HaltRecordsCauseOpAndAddress : (State.reset.setPc 0x00001).pc = (0xFFFFF : Addr) + 2 := by decide
theorem witness_ConditionalJumpsTestZero : (State.reset.setFlags (fl true true true true)).flags.z = true ∧
    State.reset.flags.z = false := by decide
/-- Of every statement whose one hypothesis is a canonical memory: PushStoresTheRegisterBelowTheStack,
CallPushesTheReturnAddress, PopUndoesPush, StoreWritesTheWordAtTheAddress, ByteWriteChangesOneByte,
WordRoundTripsThroughMemory. Memory is not empty here. -/
theorem witness_canonical_memory : (withBytes State.reset 0xFFFFF [1, 0, 2]).mem = [(1, 2), (0xFFFFF, 1)] ∧
    (withBytes State.reset 0xFFFFF [1, 0, 2]).mem.wf = true := by decide

/-- The state after a CALL through R5 from `at' 0x12344`. -/
def called : State :=
  ((((at' 0x12344 0xAA00).advance.push 0x2346).push 0x0001).setPc 0)

theorem witness_RetUndoesCall : (at' 0x12344 0xAA00).advance.mem.wf = true ∧
    exec (.call 5) (at' 0x12344 0xAA00).advance = .next called ∧
    (called.setReg 1 7).sp = called.sp ∧
    (∀ k < 4, (called.setReg 1 7).mem.read8 (called.sp + BitVec.ofNat 20 k) =
      called.mem.read8 (called.sp + BitVec.ofNat 20 k)) :=
  ⟨by decide, by rfl, by decide, fun _ _ => rfl⟩

/-- Both clauses, a string that wraps at the top of memory (n = 2) and an empty one (n = 0). -/
theorem witness_StringOutputEmitsUpToTheTerminator :
    (∀ k < 2, (withBytes (State.reset.setPc 0xFFFFF) 0xFFFFF [1, 2]).mem.read8 (0xFFFFF + BitVec.ofNat 20 k) ≠ 0) ∧
    (withBytes (State.reset.setPc 0xFFFFF) 0xFFFFF [1, 2]).mem.read8 (0xFFFFF + BitVec.ofNat 20 2) = 0 ∧
    (0xFFFFF : Addr) = (withBytes (State.reset.setPc 0xFFFFF) 0xFFFFF [1, 2]).pc ∧
    State.reset.mem.read8 (0xFFFF + BitVec.ofNat 20 0) = 0 ∧
    (0xFFFF : Addr).toNat = ((State.reset.setReg 2 0xFFFF).reg 2).toNat := by decide

theorem lookup_full (lo n a : Nat) (h : lo ≤ a) (h' : a < lo + n) :
    Memory.lookup ((List.range' lo n).map fun k => (k, (1 : Byte))) a = 1 := by
  induction n generalizing lo with
  | zero => omega
  | succ n ih =>
    simp only [List.range'_succ, List.map_cons, Memory.lookup]
    split
    · rfl
    · exact ih (lo + 1) (by omega) (by omega)

/-- Both clauses: reset has a 0x00, and a memory with 0x01 everywhere has none. -/
theorem witness_StringOutputWaitsForeverWithoutTerminator : State.reset.mem.read8 0 = 0 ∧
    ∀ a : Addr, (State.reset.setMem ((List.range' 0 memSize).map fun k => (k, (1 : Byte)))).mem.read8 a ≠ 0 := by
  refine ⟨by decide, fun a => ?_⟩
  rw [State.setMem_mem, Memory.read8, lookup_full 0 memSize a.toNat (Nat.zero_le _) (by have := a.isLt; omega)]
  decide

/-- A console with one answer held ready. -/
def ready (ans : ConAnswer) : State := State.reset.consoleProvide ans

/-- The four clauses. -/
theorem witness_ConsoleAnswersInOrderThenAsRestSays :
    (ready ⟨[1], .malformed⟩).console.pending = ⟨[1], .malformed⟩ :: [] ∧
    State.reset.console.pending = [] ∧ State.reset.console.rest = .oracle ∧
    ({ State.reset.console with rest := .endOfInput } : Console).rest = .endOfInput ∧
    ({ State.reset.console with rest := .silent } : Console).rest = .silent := by decide

/-- With a line of two bytes, at its first byte and its terminator, and with an empty line. -/
theorem witness_LineInputWritesTheLineAndTerminator :
    (ready ⟨[7, 8], .malformed⟩).mem.wf = true ∧
    (ready ⟨[7, 8], .malformed⟩).console.answer = some (⟨[7, 8], .malformed⟩, State.reset.console) ∧
    (ready ⟨[], .malformed⟩).console.answer = some (⟨[], .malformed⟩, State.reset.console) ∧
    (∀ k < 3, ∀ j < 3, k < j → (0x200 : Addr) + BitVec.ofNat 20 j ≠ 0x200 + BitVec.ofNat 20 k) := by decide

/-- An integer, and malformed input. -/
theorem witness_IntegerInputStoresModuloOrNothing :
    Instr.stdinIntAlt47 5 1 ∈ [Instr.stdinInt 1, .stdinIntAlt23 5 1, .stdinIntAlt47 5 1] ∧
    (ready ⟨[], .int (-1)⟩).console.answer = some (⟨[], .int (-1)⟩, State.reset.console) ∧
    (ready ⟨[], .malformed⟩).console.answer = some (⟨[], .malformed⟩, State.reset.console) := by decide

theorem witness_InputWaitsUntilTheConsoleAnswers :
    Instr.stdinInt 1 ∈ [Instr.stdinLine 1, .stdinInt 1, .stdinIntAlt23 0 1, .stdinIntAlt47 0 1] ∧
    (State.reset.setConsole { Config.consoleStart with rest := .silent }).console.pending = [] ∧
    (State.reset.setConsole { Config.consoleStart with rest := .silent }).console.rest = .silent := by decide

theorem witness_OverflowIsSignedOverflow :
    exec (.add 0 1) State.reset = .next (State.reset.writeAlu 0 (addAlu 0 0 State.reset.flags)) ∧
    exec (.sub 0 1) State.reset = .next (State.reset.writeAlu 0 (subAlu 0 0 true State.reset.flags)) := ⟨rfl, rfl⟩

/-- The three pairs. -/
theorem witness_LogicStoresTheBitwiseResult (r q : RegIx) :
    (Instr.and r q, Bool.and) ∈ [(Instr.and r q, Bool.and), (.or r q, Bool.or), (.xor r q, Bool.xor)] ∧
    (Instr.xor r q, Bool.xor) ∈ [(Instr.and r q, Bool.and), (.or r q, Bool.or), (.xor r q, Bool.xor)] :=
  ⟨.head _, .tail _ (.tail _ (.head _))⟩

theorem witness_UnassignedExtHaltIsDead : (State.reset.setPc 0x12).pc = (0x10 : Addr) + 2 ∧
    (0xDFFF : Word).toNat / 4096 = 0xD ∧ (0xD000 : Word).toNat / 4096 = 0xD := by decide

/-- L2-EXT-9: the STORE at 0x10 writes the word at 0x12, the next fetch. -/
theorem witness_StoreIsSeenByTheNextFetch : ((State.reset.setPc 0x12).setReg 1 0x12).mem.wf = true ∧
    exec (.store 1 2) ((State.reset.setPc 0x12).setReg 1 0x12) = .next ((State.reset.setPc 0x12).setReg 1 0x12) ∧
    ((State.reset.setPc 0x12).setReg 1 0x12).pc.toNat = (((State.reset.setPc 0x12).setReg 1 0x12).reg 1).toNat ∧
    ((State.reset.setPc 0x12).setReg 1 0x12).halted = false := ⟨by decide, by rfl, by decide, by decide⟩

/-- A halted state that meets the invariant, memory and history not empty. -/
theorem witness_EveryStepKeepsTheInvariant :
    (((withBytes (State.reset.setPc 0x12) 0x10 [5]).conOut (.outInt (-32768))).raiseHalt .haltInstr 0).Inv ∧
    step (((withBytes (State.reset.setPc 0x12) 0x10 [5]).conOut (.outInt (-32768))).raiseHalt .haltInstr 0) =
      .next (((withBytes (State.reset.setPc 0x12) 0x10 [5]).conOut (.outInt (-32768))).raiseHalt .haltInstr 0) :=
  ⟨⟨by decide, by decide, by unfold LatchesTell; decide, by
    intro e he
    have : e = .outInt (-32768) := by
      simpa [withBytes, State.reset, State.resetWith, Config.consoleStart] using he
    subst this
    unfold ConEvent.Lawful
    decide⟩, rfl⟩

/-- Of FlagsChangeOnlyAsTheTableSays, RegistersAndSpChangeOnlyAsListed, MemoryChangesOnlyWhereStored,
RunStateAndPcChangeOnlyAsListed and HistoryGrowsByOneEventAtThePort, with each class of instruction. -/
theorem witness_exec_next : exec .nop State.reset = .next State.reset ∧ State.reset.mem.wf = true ∧
    Instr.nop.writesZeroSign = false ∧ Instr.nop.writesCarry = false ∧ Instr.nop.writesOverflow = false ∧
    Instr.nop.dest ≠ some 0 ∧ Instr.nop.halts = false ∧ Instr.nop.movesPc = false ∧
    exec .halt State.reset = .next (State.reset.raiseHalt .haltInstr 0) ∧ Instr.halt.halts = true :=
  ⟨rfl, by decide, rfl, rfl, rfl, by decide, rfl, rfl, rfl, rfl⟩

theorem witness_SignCarryOverflowAreUnobserved : (fl false true true true).z = State.reset.flags.z ∧
    step State.reset = .next (State.reset.advance.raiseHalt .haltInstr 0) := ⟨rfl, by rfl⟩

/-- Its second clause: a step that never completes. -/
theorem witness_fault_step :
    step ((at' 0x100 0xC200).setConsole { Config.consoleStart with rest := .silent }) = .fault .stdinUnanswered := by
  rfl

theorem witness_RunIsTheStepRepeated : State.reset.hostRun 1 = .next (State.reset.advance.raiseHalt .haltInstr 0) := by
  rfl

end Sys2Proof.Tests
end

section
/-! PROOF. What a completed instruction leaves, said once, and the rules of the state that follow from it (10_state.md). -/

namespace Sys2Proof.Machine

/-! ## The console requests that are answered -/

/-- A request answered: the console after the answer, its history one request longer (R182). -/
def State.requested (s : State) (kind : ConKind) (c : Console) : State :=
  s.setConsole { c with log := s.console.log ++ [.conIn kind] }

/-- A numeric read answered (R178): the request, then the number in the register and its Z and S. -/
def State.numberRead (s : State) (src : RegIx) (ans : IntAnswer) (c : Console) : State :=
  ((s.requested .int c).setReg src (ans.reg (s.reg src))).setFlags (ans.flags s.flags)

/-- A line read answered (R177): the request, then the line and its terminator in memory. -/
def State.lineRead (s : State) (src : RegIx) (line : List Byte) (c : Console) : State :=
  (s.requested .line c).setMem (s.mem.writeBytes (s.regAddr src) (line ++ [0]))

/-- A request's outcome: the state that `k` makes of the answer and of the console after it, or a wait for ever
(R182). -/
def State.onAnswer (s : State) (k : ConAnswer → Console → State) : Host.Outcome State Fault Refusal :=
  match s.console.answer with
  | none => .fault .stdinUnanswered
  | some (ans, c) => .next (k ans c)

theorem State.onAnswer_next {s t : State} {k : ConAnswer → Console → State} (h : s.onAnswer k = .next t) :
    ∃ ans c, s.console.answer = some (ans, c) ∧ t = k ans c := by
  unfold State.onAnswer at h
  split at h
  · cases h
  · cases h
    exact ⟨_, _, ‹_›, rfl⟩

/-- A numeric read is a request with the number's effect (R178). -/
theorem State.readInt_eq_onAnswer (s : State) (src : RegIx) :
    s.readInt src = s.onAnswer fun ans c => s.numberRead src ans.int c := by
  unfold State.onAnswer
  obtain ⟨hf, ha⟩ | ⟨ans, c, ha, hn⟩ := s.readInt_cases src
  · rw [hf, ha]
  · rw [hn, ha]
    rfl

/-- A line read is a request with the line's effect (R177). -/
theorem execStdinLine_eq_onAnswer (s : State) (src : RegIx) :
    execStdinLine src s = s.onAnswer fun ans c => s.lineRead src ans.line c := by
  unfold execStdinLine State.onAnswer
  cases h : s.conIn .line with
  | none => rw [(s.conIn_none_iff .line).mp h]
  | some p =>
    obtain ⟨ans, u⟩ := p
    obtain ⟨c, ha, rfl⟩ := State.conIn_some h
    rw [ha]
    rfl

/-- JZ sets the pc in both branches: to the register's address, or to where it is (R151). -/
theorem exec_jz (dst : RegIx) (s : State) :
    exec (.jz dst) s = .next (s.setPc (if s.flags.z then s.regAddr dst else s.pc)) := by
  unfold exec execJz
  cases s.flags.z <;> rfl

/-- JNZ sets the pc in both branches (R152). -/
theorem exec_jnz (dst : RegIx) (s : State) :
    exec (.jnz dst) s = .next (s.setPc (if s.flags.z then s.pc else s.regAddr dst)) := by
  unfold exec execJnz
  cases s.flags.z <;> rfl

/-- STDOUT 0 emits the string at the pc and goes past it (R171). -/
theorem exec_stdoutStr (s : State) :
    exec .stdoutStr s = s.emitString s.pc (fun last u => u.setPc (pastString last)) := rfl

/-- STDOUT 2 emits the string at a register's address (R173). -/
theorem exec_stdoutPstr (src : RegIx) (s : State) :
    exec (.stdoutPstr src) s = s.emitString (s.regAddr src) (fun _ u => u) := rfl

/-- The string that a completed string output emitted, and its terminator's address (R180). -/
theorem State.emitString_next {s t : State} {a : Addr} {k : Addr → State → State}
    (h : s.emitString a k = .next t) :
    ∃ bytes last, s.mem.scanString a = some (bytes, last) ∧ t = k last (s.conOut (.outStr bytes)) := by
  obtain ⟨hf, -⟩ | ⟨bytes, last, hs, hn⟩ := s.emitString_cases a k
  · rw [hf] at h
    cases h
  · rw [hn] at h
    cases h
    exact ⟨bytes, last, hs, rfl⟩

/-! ## The flags of the ALU -/

/-- Without V written, as in CMP, V stays (R122, D6). -/
theorem subAlu_false_v (a b : Word) (f : Flags) : (subAlu a b false f).2.v = f.v := by
  simp [subAlu, zs]

/-- Neither ALU reads a flag for its result or for Z (R121, R122). -/
theorem addAlu_result_congr (a b : Word) (f g : Flags) : (addAlu a b g).1 = (addAlu a b f).1 := rfl
theorem addAlu_z_congr (a b : Word) (f g : Flags) : (addAlu a b g).2.z = (addAlu a b f).2.z := rfl
theorem subAlu_result_congr (a b : Word) (w : Bool) (f g : Flags) : (subAlu a b w g).1 = (subAlu a b w f).1 := rfl
theorem subAlu_z_congr (a b : Word) (w : Bool) (f g : Flags) : (subAlu a b w g).2.z = (subAlu a b w f).2.z := rfl

/-! ## What a completed instruction leaves

The rules of the state below (the flags, the registers, the sp, the run state, the pc, the invariant) are each one case
analysis of `Completes`, in which only the instructions that the rule speaks of have a case of their own. -/

/-- `t` has the form of a next state of the instruction `i` run from `s`. A value is left open where the rules of the
state ask only where it goes: a register's new value, a stored word, a jump's target. -/
inductive Completes (s : State) : Instr → State → Prop
  | halt : Completes s .halt (s.raiseHalt .haltInstr 0)
  | illegal (op : BitVec 4) : Completes s (.illegal op) (s.raiseHalt .illegalOpcode op)
  | nop : Completes s .nop s
  | stdoutRsvd (mode : BitVec 3) : Completes s (.stdoutRsvd mode) s
  | jmp (dst : RegIx) (target : Addr) : Completes s (.jmp dst) (s.setPc target)
  | jz (dst : RegIx) (target : Addr) : Completes s (.jz dst) (s.setPc target)
  | jnz (dst : RegIx) (target : Addr) : Completes s (.jnz dst) (s.setPc target)
  | mov (dst src : RegIx) (v : Word) : Completes s (.mov dst src) (s.writeResult dst v)
  | movi (dst : RegIx) (imm9 : BitVec 9) (v : Word) : Completes s (.movi dst imm9) (s.writeResult dst v)
  | load (reg1 reg2 : RegIx) (v : Word) : Completes s (.load reg1 reg2) (s.writeResult reg1 v)
  | and (reg1 reg2 : RegIx) (v : Word) : Completes s (.and reg1 reg2) (s.writeResult reg1 v)
  | or (reg1 reg2 : RegIx) (v : Word) : Completes s (.or reg1 reg2) (s.writeResult reg1 v)
  | xor (reg1 reg2 : RegIx) (v : Word) : Completes s (.xor reg1 reg2) (s.writeResult reg1 v)
  | add (reg1 reg2 : RegIx) (rf : Word × Flags) : Completes s (.add reg1 reg2) (s.writeAlu reg1 rf)
  | sub (reg1 reg2 : RegIx) (rf : Word × Flags) : Completes s (.sub reg1 reg2) (s.writeAlu reg1 rf)
  | cmp (dst src : RegIx) {f : Flags} (sameV : f.v = s.flags.v) : Completes s (.cmp dst src) (s.setFlags f)
  | push (dst : RegIx) (v : Word) : Completes s (.push dst) (s.push v)
  | pop (dst : RegIx) (v : Word) : Completes s (.pop dst) (s.drop.writeResult dst v)
  | call (dst : RegIx) (lo hi : Word) (target : Addr) :
      Completes s (.call dst) (((s.push lo).push hi).setPc target)
  | ret (target : Addr) : Completes s .ret (s.drop.drop.setPc target)
  | store (reg1 reg2 : RegIx) (v : Word) :
      Completes s (.store reg1 reg2) (s.setMem (s.mem.write16 (s.regAddr reg1) v))
  | stdoutStr {bytes : List Byte} {last : Addr} (found : s.mem.scanString s.pc = some (bytes, last)) :
      Completes s .stdoutStr ((s.conOut (.outStr bytes)).setPc (pastString last))
  | stdoutPstr (src : RegIx) {bytes : List Byte} {last : Addr}
      (found : s.mem.scanString (s.regAddr src) = some (bytes, last)) :
      Completes s (.stdoutPstr src) (s.conOut (.outStr bytes))
  | stdoutInt (src : RegIx) (v : Word) : Completes s (.stdoutInt src) (s.conOut (.outInt (signed16 v)))
  | stdoutChr (src : RegIx) (b : Byte) : Completes s (.stdoutChr src) (s.conOut (.outChar b))
  | stdinLine (src : RegIx) {ans : ConAnswer} {c : Console} (answered : s.console.answer = some (ans, c)) :
      Completes s (.stdinLine src) (s.lineRead src ans.line c)
  | stdinInt (src : RegIx) {ans : ConAnswer} {c : Console} (answered : s.console.answer = some (ans, c)) :
      Completes s (.stdinInt src) (s.numberRead src ans.int c)
  | stdinIntAlt23 (mode : BitVec 3) (src : RegIx) {ans : ConAnswer} {c : Console}
      (answered : s.console.answer = some (ans, c)) :
      Completes s (.stdinIntAlt23 mode src) (s.numberRead src ans.int c)
  | stdinIntAlt47 (mode : BitVec 3) (src : RegIx) {ans : ConAnswer} {c : Console}
      (answered : s.console.answer = some (ans, c)) :
      Completes s (.stdinIntAlt47 mode src) (s.numberRead src ans.int c)

variable {i : Instr} {s t : State}

/-- Every completed instruction leaves a state of its form. -/
theorem completes_of_exec (h : exec i s = .next t) : Completes s i t := by
  cases i with
  | stdoutStr =>
    rw [exec_stdoutStr] at h
    obtain ⟨bytes, last, found, rfl⟩ := State.emitString_next h
    exact .stdoutStr found
  | stdoutPstr src =>
    rw [exec_stdoutPstr] at h
    obtain ⟨bytes, last, found, rfl⟩ := State.emitString_next h
    exact .stdoutPstr src found
  | stdinLine src =>
    obtain ⟨ans, c, answered, rfl⟩ := State.onAnswer_next ((execStdinLine_eq_onAnswer s src).symm.trans h)
    exact .stdinLine src answered
  | stdinInt src =>
    obtain ⟨ans, c, answered, rfl⟩ := State.onAnswer_next ((s.readInt_eq_onAnswer src).symm.trans h)
    exact .stdinInt src answered
  | stdinIntAlt23 mode src =>
    obtain ⟨ans, c, answered, rfl⟩ := State.onAnswer_next ((s.readInt_eq_onAnswer src).symm.trans h)
    exact .stdinIntAlt23 mode src answered
  | stdinIntAlt47 mode src =>
    obtain ⟨ans, c, answered, rfl⟩ := State.onAnswer_next ((s.readInt_eq_onAnswer src).symm.trans h)
    exact .stdinIntAlt47 mode src answered
  | jz dst =>
    rw [exec_jz] at h
    cases h
    exact .jz dst _
  | jnz dst =>
    rw [exec_jnz] at h
    cases h
    exact .jnz dst _
  | cmp dst src =>
    cases h
    exact .cmp dst src (subAlu_false_v ..)
  | _ =>
    cases h
    constructor

/-! ## The flags -/

@[simp] theorem IntAnswer.flags_c (a : IntAnswer) (f : Flags) : (a.flags f).c = f.c := by
  cases a <;> rfl

@[simp] theorem IntAnswer.flags_v (a : IntAnswer) (f : Flags) : (a.flags f).v = f.v := by
  cases a <;> rfl

theorem exec_zeroSign (h : exec i s = .next t) (hw : i.writesZeroSign = false) :
    t.flags.z = s.flags.z ∧ t.flags.s = s.flags.s := by
  cases completes_of_exec h with
  | mov | movi | cmp | pop | stdinInt | stdinIntAlt23 | stdinIntAlt47 | load | add | sub | and | or | xor =>
    cases hw
  | _ => exact ⟨rfl, rfl⟩

theorem exec_carry (h : exec i s = .next t) (hw : i.writesCarry = false) : t.flags.c = s.flags.c := by
  cases completes_of_exec h with
  | cmp | add | sub => cases hw
  | stdinInt | stdinIntAlt23 | stdinIntAlt47 => exact IntAnswer.flags_c _ _
  | _ => rfl

theorem exec_overflow (h : exec i s = .next t) (hw : i.writesOverflow = false) : t.flags.v = s.flags.v := by
  cases completes_of_exec h with
  | add | sub => cases hw
  | cmp dst src sameV => exact sameV
  | stdinInt | stdinIntAlt23 | stdinIntAlt47 => exact IntAnswer.flags_v _ _
  | _ => rfl

/-! ## The registers and the sp -/

@[simp] theorem State.reg_numberRead (s : State) (d r : RegIx) (ans : IntAnswer) (c : Console) :
    (s.numberRead d ans c).reg r = if r = d then ans.reg (s.reg d) else s.reg r := by
  simp [State.numberRead, State.requested]

theorem exec_reg (h : exec i s = .next t) {r : RegIx} (hr : i.dest ≠ some r) : t.reg r = s.reg r := by
  have hne {d : RegIx} (hd : i.dest = some d) : r ≠ d := fun e => hr (e ▸ hd)
  cases completes_of_exec h with
  | mov | movi | load | and | or | xor | pop => exact (State.reg_writeResult ..).trans (if_neg (hne rfl))
  | add | sub => exact (State.reg_writeAlu ..).trans (if_neg (hne rfl))
  | stdinInt | stdinIntAlt23 | stdinIntAlt47 => exact (State.reg_numberRead ..).trans (if_neg (hne rfl))
  | _ => rfl

theorem exec_sp (h : exec i s = .next t) : t.sp = i.spAfter s.sp := by
  cases completes_of_exec h with
  | call => exact BitVec.sub_sub s.sp 2 2
  | ret => exact BitVec.add_assoc s.sp 2 2
  | _ => rfl

/-- The sp moves by an even number of bytes, so it stays even over the wrap too (R30). -/
theorem spAfter_even (i : Instr) {sp : Addr} (h : sp.toNat % 2 = 0) : (i.spAfter sp).toNat % 2 = 0 := by
  cases i with
  | push | pop | call | ret => simp only [Instr.spAfter]; bv_omega
  | _ => exact h

/-! ## The run state, the segment registers and the pc -/

theorem exec_sr (h : exec i s = .next t) : t.sr = s.sr := by
  cases completes_of_exec h <;> rfl

theorem exec_runState (h : exec i s = .next t) (hh : i.halts = false) :
    t.halted = s.halted ∧ t.latches = s.latches := by
  cases completes_of_exec h with
  | halt | illegal => cases hh
  | _ => exact ⟨rfl, rfl⟩

theorem exec_halted (h : exec i s = .next t) (hh : i.halts = true) : t.halted = true := by
  cases completes_of_exec h with
  | halt | illegal => rfl
  | _ => cases hh

theorem exec_pc (h : exec i s = .next t) (hp : i.movesPc = false) : t.pc = s.pc := by
  cases completes_of_exec h with
  | jmp | jz | jnz | call | ret | stdoutStr => cases hp
  | _ => rfl

/-! ## The invariant -/

/-- The op of an illegal word is 0xE or 0xF (R91). -/
theorem illegal_op {op : BitVec 4} (h : (Instr.illegal op).WellFormed = true) : op = 0xE ∨ op = 0xF := by
  revert op
  decide

/-- The latches of a halt tell why (R211), whatever they held before. -/
theorem exec_latchesTell (h : exec i s = .next t) (hw : i.WellFormed = true) (hh : i.halts = true) :
    LatchesTell t := by
  unfold LatchesTell
  rw [exec_halted h hh, if_pos rfl]
  cases completes_of_exec h with
  | halt => exact ⟨(BitVec.sub_add_cancel s.pc 2).symm, .inl ⟨rfl, rfl⟩⟩
  | illegal op => exact ⟨(BitVec.sub_add_cancel s.pc 2).symm, .inr ⟨rfl, illegal_op hw⟩⟩
  | _ => cases hh

/-- Only the stores, PUSH, CALL and the line read write memory, each by a write that keeps the canonical form. -/
theorem exec_mem_wf (h : exec i s = .next t) (hm : s.mem.wf = true) : t.mem.wf = true := by
  cases completes_of_exec h with
  | store => exact Memory.wf_write16 hm _ _
  | push dst v => exact s.push_wf hm v
  | call dst lo hi => exact (s.push lo).push_wf (s.push_wf hm lo) hi
  | stdinLine => exact Memory.wf_writeBytes hm _ _
  | _ => exact hm

/-- A signed 16-bit value lies in −32768 to 32767 (R10, R172). -/
theorem signed16_bounds (v : Word) : -32768 ≤ signed16 v ∧ signed16 v ≤ 32767 := by
  have := v.isLt
  unfold signed16
  split <;> omega

/-- An event put at the end of a lawful history leaves it lawful. -/
theorem log_lawful_append {log : List ConEvent} (hl : ∀ e ∈ log, e.Lawful) {e : ConEvent} (he : e.Lawful) :
    ∀ x ∈ log ++ [e], x.Lawful := by
  intro x hx
  rcases List.mem_append.mp hx with hx | hx
  · exact hl x hx
  · exact List.mem_singleton.mp hx ▸ he

theorem exec_log_lawful (h : exec i s = .next t) (hl : ∀ e ∈ s.console.log, e.Lawful) :
    ∀ e ∈ t.console.log, e.Lawful := by
  cases completes_of_exec h with
  | stdoutStr found | stdoutPstr src found =>
    obtain ⟨-, -, hne, -⟩ := Memory.scanFor_some found
    exact log_lawful_append hl hne
  | stdoutInt src v => exact log_lawful_append hl (signed16_bounds v)
  | stdoutChr | stdinLine | stdinInt | stdinIntAlt23 | stdinIntAlt47 => exact log_lawful_append hl trivial
  | _ => exact hl

/-- The invariant over one instruction of a running core. -/
theorem exec_inv (hw : i.WellFormed = true) (hrun : s.halted = false) (h : exec i s = .next t) (hi : s.Inv) :
    t.Inv where
  mem_wf := exec_mem_wf h hi.mem_wf
  sp_even := exec_sp h ▸ spAfter_even i hi.sp_even
  log_lawful := exec_log_lawful h hi.log_lawful
  latches_tell := by
    cases hh : i.halts with
    | true => exact exec_latchesTell h hw hh
    | false =>
      obtain ⟨hth, htl⟩ := exec_runState h hh
      have := hi.latches_tell
      unfold LatchesTell at this ⊢
      simpa [hth, htl, hrun] using this

/-- The fetch's advance keeps the invariant of a running core: its latches say NONE wherever the pc is (R213). -/
theorem State.advance_inv (hrun : s.halted = false) (hi : s.Inv) : s.advance.Inv where
  mem_wf := hi.mem_wf
  sp_even := hi.sp_even
  log_lawful := hi.log_lawful
  latches_tell := by
    have := hi.latches_tell
    unfold LatchesTell at this ⊢
    simpa [hrun] using this

/-- Settles O46: a halted core stays as it is; a running one advances and runs a well-formed instruction. -/
theorem everyStepKeepsTheInvariant : Obligations.EveryStepKeepsTheInvariant := by
  intro s t hi h
  cases hrun : s.halted with
  | true =>
    rw [step_halted hrun] at h
    cases h
    exact hi
  | false =>
    rw [step_running hrun] at h
    exact exec_inv (decodeWord_wellFormed s.fetchWord) (s := s.advance) hrun h (State.advance_inv hrun hi)

/-- Settles O45: memory, latches and history are the empty ones, and 0xFFFFE is even. -/
theorem resetMeetsTheInvariant : Obligations.ResetMeetsTheInvariant where
  mem_wf := rfl
  sp_even := rfl
  latches_tell := rfl
  log_lawful := fun _ he => nomatch he

/-- Settles O47, by the rule of each flag. -/
theorem flagsChangeOnlyAsTheTableSays : Obligations.FlagsChangeOnlyAsTheTableSays :=
  fun _ _ _ h => ⟨exec_zeroSign h, exec_carry h, exec_overflow h⟩

/-- Settles O48, by the rules of the registers and of the sp. -/
theorem registersAndSpChangeOnlyAsListed : Obligations.RegistersAndSpChangeOnlyAsListed :=
  fun _ _ _ h => ⟨fun _ hr => exec_reg h hr, exec_sp h⟩

/-- Settles O50, by the rules of the segment registers, the run state and the pc. -/
theorem runStateAndPcChangeOnlyAsListed : Obligations.RunStateAndPcChangeOnlyAsListed :=
  fun _ _ _ h => ⟨exec_sr h, exec_runState h, exec_halted h, exec_pc h⟩

/-- Settles O43: each field of the reset state is its value by definition. -/
theorem resetPutsEveryFieldAtItsValue : Obligations.ResetPutsEveryFieldAtItsValue :=
  fun _ _ _ _ => ⟨rfl, rfl, rfl, rfl, fun _ => rfl, rfl, rfl, rfl, rfl, rfl, rfl, rfl⟩

/-- Settles O44, over the sixteen values of the flags. -/
theorem flagsBytePacksVCSZ : Obligations.FlagsBytePacksVCSZ := by
  rintro ⟨z, s, c, v⟩
  revert z s c v
  decide

/-! ## Signed overflow -/

/-- A signed sum or difference overflows 16 bits exactly when it leaves −32768 to 32767 (R31). -/
theorem saddOverflow_iff (a b : Word) :
    a.saddOverflow b = true ↔ ¬(-32768 ≤ a.toInt + b.toInt ∧ a.toInt + b.toInt ≤ 32767) := by
  simp only [BitVec.saddOverflow, Bool.or_eq_true, decide_eq_true_eq]
  omega

theorem ssubOverflow_iff (a b : Word) :
    a.ssubOverflow b = true ↔ ¬(-32768 ≤ a.toInt - b.toInt ∧ a.toInt - b.toInt ≤ 32767) := by
  simp only [BitVec.ssubOverflow, Bool.or_eq_true, decide_eq_true_eq]
  omega

/-- AddALU's result is the sum mod 2^16 (R121). -/
theorem addAlu_result (a b : Word) (f : Flags) : (addAlu a b f).1 = a + b := rfl

/-- AddALU's V compares sign bits (R121): that is signed overflow. -/
theorem addAlu_v (a b : Word) (f : Flags) : (addAlu a b f).2.v = a.saddOverflow b := by
  have hv : (addAlu a b f).2.v =
      ((a.getLsbD 15 == b.getLsbD 15) && ((addAlu a b f).1.getLsbD 15 != a.getLsbD 15)) := rfl
  rw [hv, addAlu_result, BitVec.saddOverflow_eq]
  simp only [getLsbD_fifteen, bne]

/-- SubALU's V compares sign bits (R122): that is signed overflow. -/
theorem subAlu_v (a b : Word) (f : Flags) : (subAlu a b true f).2.v = a.ssubOverflow b := by
  have hv : (subAlu a b true f).2.v =
      ((a.getLsbD 15 != b.getLsbD 15) && ((subAlu a b true f).1.getLsbD 15 != a.getLsbD 15)) := rfl
  rw [hv, subAlu_result, BitVec.ssubOverflow_eq]
  simp only [getLsbD_fifteen]
  cases a.msb <;> cases b.msb <;> cases (a - b).msb <;> rfl

/-- Settles O35: the sign-bit formulas of R121 and R122 are signed overflow of the sum and the difference. -/
theorem overflowIsSignedOverflow : Obligations.OverflowIsSignedOverflow := by
  intro s t u reg1 reg2 ht hu
  cases ht
  cases hu
  rw [State.writeAlu_flags, State.writeAlu_flags, addAlu_v, subAlu_v]
  exact ⟨saddOverflow_iff _ _, ssubOverflow_iff _ _⟩

/-! ## What no instruction reads -/

/-- Two runs side by side: both complete, in states that `R` relates, or both stop with the same fault. -/
inductive Agree (R : State → State → Prop) :
    Host.Outcome State Fault Refusal → Host.Outcome State Fault Refusal → Prop
  | next {t u : State} (h : R t u) : Agree R (.next t) (.next u)
  | fault (e : Fault) : Agree R (.fault e) (.fault e)

variable {R : State → State → Prop} {u : State} {o p : Host.Outcome State Fault Refusal}

theorem Agree.of_next {t : State} (h : Agree R (.next t) p) : ∃ u, R t u ∧ p = .next u := by
  cases h with
  | next h => exact ⟨_, h, rfl⟩

theorem Agree.of_fault {e : Fault} (h : Agree R (.fault e) p) : p = .fault e := by
  cases h with
  | fault => rfl

/-- A string output reads memory only (R180). -/
theorem emitString_agree {a : Addr} {k : Addr → State → State} (hm : u.mem = s.mem)
    (hR : ∀ bytes last, R (k last (s.conOut (.outStr bytes))) (k last (u.conOut (.outStr bytes)))) :
    Agree R (s.emitString a k) (u.emitString a k) := by
  unfold State.emitString
  rw [hm]
  cases s.mem.scanString a with
  | none => exact .fault _
  | some found => exact .next (hR found.1 found.2)

/-- A request reads the console only (R182). -/
theorem onAnswer_agree {k k' : ConAnswer → Console → State} (hc : u.console = s.console)
    (hR : ∀ ans c, R (k ans c) (k' ans c)) : Agree R (s.onAnswer k) (u.onAnswer k') := by
  unfold State.onAnswer
  rw [hc]
  cases s.console.answer with
  | none => exact .fault _
  | some p => exact .next (hR p.1 p.2)

theorem readInt_agree {src : RegIx} (hc : u.console = s.console)
    (hR : ∀ ans c, R (s.numberRead src ans c) (u.numberRead src ans c)) :
    Agree R (s.readInt src) (u.readInt src) := by
  rw [State.readInt_eq_onAnswer, State.readInt_eq_onAnswer]
  exact onAnswer_agree hc fun ans c => hR ans.int c

theorem execStdinLine_agree {src : RegIx} (hc : u.console = s.console)
    (hR : ∀ line c, R (s.lineRead src line c) (u.lineRead src line c)) :
    Agree R (execStdinLine src s) (execStdinLine src u) := by
  rw [execStdinLine_eq_onAnswer, execStdinLine_eq_onAnswer]
  exact onAnswer_agree hc fun ans c => hR ans.line c

/-! ### S, C and V -/

/-- The second state is the first but for S, C and V (R33). -/
def DifferInSCV (t u : State) : Prop := ∃ g : Flags, g.z = t.flags.z ∧ u = t.setFlags g

theorem differInSCV_setFlags {g : Flags} (hz : g.z = t.flags.z) : DifferInSCV t (t.setFlags g) :=
  ⟨g, hz, rfl⟩

/-- New flags with the same Z, put over flags that differ. -/
theorem differInSCV_setFlags_setFlags (f : Flags) {g g' : Flags} (hz : g'.z = g.z) :
    DifferInSCV (s.setFlags g) ((s.setFlags f).setFlags g') :=
  ⟨g', hz, rfl⟩

/-- ALU results with the same word and the same Z, stored over flags that differ. -/
theorem differInSCV_writeAlu (f : Flags) (d : RegIx) {rf rf' : Word × Flags} (hr : rf'.1 = rf.1)
    (hz : rf'.2.z = rf.2.z) : DifferInSCV (s.writeAlu d rf) ((s.setFlags f).writeAlu d rf') := by
  unfold State.writeAlu
  rw [hr]
  exact differInSCV_setFlags_setFlags f hz

/-- ZS of the number sets Z alike; malformed input leaves both Zs as they were (R178). -/
theorem IntAnswer.flags_z_congr (a : IntAnswer) {f g : Flags} (hz : g.z = f.z) :
    (a.flags g).z = (a.flags f).z := by
  cases a with
  | int n => rfl
  | malformed => exact hz

/-- An instruction sets Z without reading a flag, or keeps it; of the flags, only Z steers a jump (R33). -/
theorem exec_agree_setFlags (i : Instr) {f : Flags} (hz : f.z = s.flags.z) :
    Agree DifferInSCV (exec i s) (exec i (s.setFlags f)) := by
  cases i with
  | stdoutStr =>
    rw [exec_stdoutStr, exec_stdoutStr]
    exact emitString_agree rfl fun _ _ => differInSCV_setFlags hz
  | stdoutPstr =>
    rw [exec_stdoutPstr, exec_stdoutPstr]
    exact emitString_agree rfl fun _ _ => differInSCV_setFlags hz
  | stdinLine => exact execStdinLine_agree rfl fun _ _ => differInSCV_setFlags hz
  | stdinInt | stdinIntAlt23 | stdinIntAlt47 =>
    exact readInt_agree rfl fun ans _ => differInSCV_setFlags (ans.flags_z_congr hz)
  | jz =>
    simp only [exec_jz, State.setFlags_flags, hz]
    exact .next (differInSCV_setFlags hz)
  | jnz =>
    simp only [exec_jnz, State.setFlags_flags, hz]
    exact .next (differInSCV_setFlags hz)
  | mov | movi | load | and | or | xor | pop => exact .next (differInSCV_setFlags rfl)
  | add => exact .next (differInSCV_writeAlu f _ (addAlu_result_congr ..) (addAlu_z_congr ..))
  | sub => exact .next (differInSCV_writeAlu f _ (subAlu_result_congr ..) (subAlu_z_congr ..))
  | cmp => exact .next (differInSCV_setFlags_setFlags f (subAlu_z_congr ..))
  | _ => exact .next (differInSCV_setFlags hz)

theorem step_agree_setFlags {f : Flags} (hz : f.z = s.flags.z) :
    Agree DifferInSCV (step s) (step (s.setFlags f)) := by
  cases hrun : s.halted with
  | true =>
    rw [step_halted hrun, step_halted (s := s.setFlags f) hrun]
    exact .next (differInSCV_setFlags hz)
  | false =>
    rw [step_running hrun, step_running (s := s.setFlags f) hrun]
    exact exec_agree_setFlags s.fetchInstr (s := s.advance) hz

/-- Settles O51: S, C and V have no effect on the outcome, nor on the next state but in themselves. -/
theorem signCarryOverflowAreUnobserved : Obligations.SignCarryOverflowAreUnobserved := by
  intro s f hz
  have h := step_agree_setFlags hz
  refine ⟨fun t ht => ?_, fun e he => ?_⟩
  · obtain ⟨_, ⟨g, hg, rfl⟩, hn⟩ := Agree.of_next (ht ▸ h)
    exact ⟨g, hg, hn⟩
  · exact Agree.of_fault (he ▸ h)

/-! ### The segment registers and the latches -/

/-- The state with other segment registers and other latches. -/
def State.withInert (s : State) (sr : Vector Word 4) (l : HaltLatches) : State :=
  { s with sr := sr, latches := l }

/-- The second state is the first with the segment registers `sr`, and with the latches `l` unless the run state
is no longer `halted`, the one before: then the latches are the halt's, in both (R36). -/
def DifferInInert (halted : Bool) (sr : Vector Word 4) (l : HaltLatches) (t u : State) : Prop :=
  u = t.withInert sr (if t.halted = halted then l else t.latches)

variable (sr : Vector Word 4) (l : HaltLatches)

theorem differInInert_of_halted_eq {halted : Bool} (hh : t.halted = halted) (hu : u = t.withInert sr l) :
    DifferInInert halted sr l t u := by
  rw [DifferInInert, if_pos hh, hu]

/-- An instruction carries the segment registers and the latches along; a halt writes the latches (R36, R37). -/
theorem exec_agree_withInert (i : Instr) (hrun : s.halted = false) :
    Agree (DifferInInert s.halted sr l) (exec i s) (exec i (s.withInert sr l)) := by
  cases i with
  | halt | illegal => exact .next (by rw [hrun]; rfl)
  | stdoutStr =>
    rw [exec_stdoutStr, exec_stdoutStr]
    exact emitString_agree rfl fun _ _ => differInInert_of_halted_eq sr l rfl rfl
  | stdoutPstr =>
    rw [exec_stdoutPstr, exec_stdoutPstr]
    exact emitString_agree rfl fun _ _ => differInInert_of_halted_eq sr l rfl rfl
  | stdinLine => exact execStdinLine_agree rfl fun _ _ => differInInert_of_halted_eq sr l rfl rfl
  | stdinInt | stdinIntAlt23 | stdinIntAlt47 =>
    exact readInt_agree rfl fun _ _ => differInInert_of_halted_eq sr l rfl rfl
  | jz =>
    rw [exec_jz, exec_jz]
    exact .next (differInInert_of_halted_eq sr l rfl rfl)
  | jnz =>
    rw [exec_jnz, exec_jnz]
    exact .next (differInInert_of_halted_eq sr l rfl rfl)
  | add | sub => exact .next (differInInert_of_halted_eq sr l (State.writeAlu_halted ..) rfl)
  | cmp => exact .next (differInInert_of_halted_eq sr l (State.setFlags_halted ..) rfl)
  | _ => exact .next (differInInert_of_halted_eq sr l rfl rfl)

theorem step_agree_withInert (s : State) :
    Agree (DifferInInert s.halted sr l) (step s) (step (s.withInert sr l)) := by
  cases hrun : s.halted with
  | true =>
    rw [step_halted hrun, step_halted (s := s.withInert sr l) hrun]
    exact .next (differInInert_of_halted_eq sr l hrun rfl)
  | false =>
    rw [step_running hrun, step_running (s := s.withInert sr l) hrun]
    exact hrun ▸ exec_agree_withInert sr l s.fetchInstr (s := s.advance) hrun

/-- Settles O52: the step carries them along, and a halt puts its own latches over any others. -/
theorem segmentRegistersAndLatchesAreUnread : Obligations.SegmentRegistersAndLatchesAreUnread := by
  intro s sr l
  have h := step_agree_withInert sr l s
  refine ⟨fun t ht => ?_, fun e he => ?_⟩
  · obtain ⟨_, rfl, hn⟩ := Agree.of_next (ht ▸ h)
    exact hn
  · exact Agree.of_fault (he ▸ h)

end Sys2Proof.Machine
end

section
/-! PROOF. Memory and the instructions it holds (20_memory.md): what a write leaves, what an instruction stores, what a fetch finds, and when a step completes. -/

namespace Sys2Proof

/-! ## Decoding what was encoded -/

/-- The op of a Format B word stands in its top four bits (R83). -/
theorem opBit_encB (op : BitVec 4) (dst : BitVec 3) (imm9 : BitVec 9) (k : Nat) :
    (encB op dst imm9).getLsbD (12 + k) = op.getLsbD k := by
  simp only [encB, BitVec.getLsbD_append]
  rw [if_neg (by omega), if_neg (by omega)]
  congr 1
  omega

theorem dstField_encB (op : BitVec 4) (dst : BitVec 3) (imm9 : BitVec 9) :
    dstField (encB op dst imm9) = dst.toFin := by
  unfold dstField regField encB
  rw [BitVec.extractLsb'_append_eq_of_le (Nat.le_refl 9), Nat.sub_self, BitVec.extractLsb'_append_eq_right]

theorem imm9Field_encB (op : BitVec 4) (dst : BitVec 3) (imm9 : BitVec 9) :
    imm9Field (encB op dst imm9) = imm9 :=
  BitVec.extractLsb'_append_eq_right

/-- A word of op 0x3 is a MOVI (R84). -/
theorem decodeWord_encB_movi (dst : BitVec 3) (imm9 : BitVec 9) :
    decodeWord (encB 0x3 dst imm9) = .movi dst.toFin imm9 := by
  unfold decodeWord
  rw [opBit_encB _ _ _ 3, opBit_encB _ _ _ 2, opBit_encB _ _ _ 1, opBit_encB _ _ _ 0]
  show Instr.movi (dstField _) (imm9Field _) = _
  rw [dstField_encB, imm9Field_encB]

/-- A well-formed instruction is read back from its word (R95). MOVI goes by the fields of its word; the other operands
are at most two 3-bit fields or one 4-bit field, and all their values are tried. -/
theorem decodeWord_encodeWord {i : Instr} (hw : i.WellFormed = true) : decodeWord (encodeWord i) = i := by
  cases i with
  | movi dst imm9 => exact decodeWord_encB_movi (regBits dst) imm9
  | halt | nop | stdoutStr | ret => decide
  | jmp r | jz r | jnz r | push r | pop r | call r
  | stdoutInt r | stdoutPstr r | stdoutChr r | stdinLine r | stdinInt r =>
    revert r
    decide
  | mov r q | cmp r q | load r q | store r q | add r q | sub r q | and r q | or r q | xor r q =>
    revert r q
    decide
  | stdoutRsvd mode =>
    revert mode
    decide
  | stdinIntAlt23 mode src | stdinIntAlt47 mode src =>
    revert mode src
    decide
  | illegal op =>
    revert op
    decide

end Sys2Proof

namespace Sys2Proof.Machine

variable {s t u : State} {i : Instr}

/-! ## The host's addresses -/

/-- An address is reduced mod 2^20 (R51). -/
theorem Addr.ofNat_mod (addr : Nat) : BitVec.ofNat 20 (addr % 1048576) = BitVec.ofNat 20 addr := by
  apply BitVec.eq_of_toNat_eq
  simp only [BitVec.toNat_ofNat]
  omega

theorem Addr.ofNat_eq_iff (x addr : Nat) :
    BitVec.ofNat 20 x = BitVec.ofNat 20 addr ↔ x % 1048576 = addr % 1048576 := by
  rw [← BitVec.toNat_inj]
  simp only [BitVec.toNat_ofNat, Nat.reducePow]

/-- The advance past an instruction at an address, as a number and as an address (R111). -/
theorem Addr.ofNat_toNat_add (a : Addr) (n : Nat) : BitVec.ofNat 20 (a.toNat + n) = a + BitVec.ofNat 20 n := by
  rw [BitVec.ofNat_add, BitVec.ofNat_toNat, BitVec.setWidth_eq]

/-! ## What a write leaves -/

/-- A word write is a write of its two bytes, one after the other (R57). -/
theorem Memory.write16_eq_writeBytes (m : Memory) (a : Addr) (v : Word) :
    m.write16 a v = m.writeBytes a [v.extractLsb' 0 8, v.extractLsb' 8 8] := rfl

theorem sameMemoryOutside_of_mem_eq {base : Addr} {n : Nat} (h : t.mem = s.mem) : SameMemoryOutside base n s t :=
  fun a _ => by rw [h]

theorem sameMemoryOutside_of_writeBytes {base : Addr} {bytes : List Byte} (hm : s.mem.wf = true)
    (h : t.mem = s.mem.writeBytes base bytes) : SameMemoryOutside base bytes.length s t :=
  fun a ha => by rw [h, Memory.read8_writeBytes_outside hm base a bytes ha]

theorem sameMemoryOutside_of_write16 {base : Addr} {v : Word} (hm : s.mem.wf = true)
    (h : t.mem = s.mem.write16 base v) : SameMemoryOutside base 2 s t :=
  sameMemoryOutside_of_writeBytes hm (h.trans (Memory.write16_eq_writeBytes ..))

/-- A change of the bytes of an upper range, then of those of the range just below it, changes the two together. -/
theorem SameMemoryOutside.join {base : Addr} {n k : Nat} (hup : SameMemoryOutside (base + BitVec.ofNat 20 n) k s t)
    (hlow : SameMemoryOutside base n t u) : SameMemoryOutside base (n + k) s u := by
  intro a ha
  rw [hlow a fun j hj => ha j (by omega), hup a fun j hj => ?_]
  rw [BitVec.add_assoc, ← BitVec.ofNat_add]
  exact ha (n + j) (by omega)

/-- The line read stores the line and its terminator (R177). -/
theorem storesAt_stdinLine {ans : ConAnswer} {c : Console} (src : RegIx) (h : s.console.answer = some (ans, c)) :
    (Instr.stdinLine src).storesAt s = (s.regAddr src, (ans.line ++ [0]).length) := by
  rw [List.length_append]
  unfold Instr.storesAt
  rw [h]
  rfl

/-- CALL's two pushes store the four bytes from sp − 4 up (R164). -/
theorem sameMemoryOutside_push_push (hm : s.mem.wf = true) (lo hi : Word) :
    SameMemoryOutside (s.sp - 4) 4 s ((s.push lo).push hi) := by
  have hup : SameMemoryOutside (s.sp - 4 + BitVec.ofNat 20 2) 2 s (s.push lo) := by
    rw [show s.sp - 4 + BitVec.ofNat 20 2 = s.sp - 2 by bv_omega]
    exact sameMemoryOutside_of_write16 hm rfl
  have hlow : SameMemoryOutside (s.sp - 4) 2 (s.push lo) ((s.push lo).push hi) := by
    rw [show s.sp - 4 = (s.push lo).sp - 2 from (BitVec.sub_sub s.sp 2 2).symm]
    exact sameMemoryOutside_of_write16 (s.push_wf hm lo) rfl
  exact hup.join hlow

/-- Only STORE, PUSH, CALL and the line read write memory, each where its meaning stores (R61). -/
theorem exec_sameMemoryOutside (hm : s.mem.wf = true) (h : exec i s = .next t) :
    SameMemoryOutside (i.storesAt s).1 (i.storesAt s).2 s t := by
  cases completes_of_exec h with
  | store | push => exact sameMemoryOutside_of_write16 hm rfl
  | call dst lo hi => exact sameMemoryOutside_push_push hm lo hi
  | stdinLine src answered =>
    rw [storesAt_stdinLine src answered]
    exact sameMemoryOutside_of_writeBytes hm rfl
  | _ => exact sameMemoryOutside_of_mem_eq rfl

/-- Settles O49, by the rule of what an instruction stores. -/
theorem memoryChangesOnlyWhereStored : Obligations.MemoryChangesOnlyWhereStored :=
  fun _ _ _ hm h => exec_sameMemoryOutside hm h

/-! ## The host's reads and writes -/

/-- Settles O38: the host's addresses are the same mod 2^20 exactly when the addresses in memory are. -/
theorem byteWriteChangesOneByte : Obligations.ByteWriteChangesOneByte := by
  intro s addr x b hm
  refine (Memory.read8_write8 hm _ _ _).trans ?_
  simp only [Addr.ofNat_eq_iff]
  rfl

/-- Settles O39: each byte's address is reduced on its own. -/
theorem wordReadIsTwoBytesLittleEndian : Obligations.WordReadIsTwoBytesLittleEndian := by
  intro s addr
  unfold State.hostReadWord16 State.hostReadByte
  rw [Addr.ofNat_mod, Addr.ofNat_mod, BitVec.ofNat_add]
  exact Memory.read16_toNat _ _

/-- Settles O40, by the word's round trip and by each byte's read after a word write. -/
theorem wordRoundTripsThroughMemory : Obligations.WordRoundTripsThroughMemory := by
  intro s addr v hm
  have hread (x : Addr) := Memory.read8_write16 hm (BitVec.ofNat 20 addr) x v
  refine ⟨Memory.read16_write16 hm _ v, ?low, ?high, sameMemoryOutside_of_write16 hm rfl⟩
  case low =>
    rw [← extract_low_toNat]
    exact congrArg _ ((hread _).trans ((if_neg (Addr.ne_add_one _)).trans (if_pos rfl)))
  case high =>
    rw [← extract_high_toNat]
    exact congrArg _ ((hread _).trans (if_pos (BitVec.ofNat_add addr 1)))

/-- A 20-bit value of memory is its low word, with the low 4 bits of the third byte above it (R56). -/
theorem Memory.read20_toNat (m : Memory) (a : Addr) :
    (m.read20 a).toNat = (m.read16 a).toNat + 65536 * ((m.read8 (a + 2)).toNat % 16) := by
  have hcat : m.read20 a = (m.read8 (a + 2)).extractLsb' 0 4 ++ m.read16 a := by
    unfold Memory.read20 Memory.read16
    exact BitVec.append_assoc
  rw [hcat, BitVec.toNat_append, ← Nat.shiftLeft_add_eq_or_of_lt (m.read16 a).isLt, Nat.shiftLeft_eq,
    BitVec.extractLsb'_toNat, Nat.shiftRight_zero]
  omega

/-- Settles O41, by the two lower bytes' word and the third byte's low 4 bits. -/
theorem twentyBitReadMasksTheThirdByte : Obligations.TwentyBitReadMasksTheThirdByte := by
  intro s addr
  unfold State.hostReadAddr20 State.hostReadByte
  rw [Memory.read20_toNat, Memory.read16_toNat, BitVec.ofNat_add, BitVec.ofNat_add]
  rfl

/-! ## What the next fetch finds -/

/-- A word written at the pc of a running core is the one its next step runs (R70). -/
theorem step_setMem_write16_pc (hm : s.mem.wf = true) (hrun : s.halted = false) (w : Word) :
    step (s.setMem (s.mem.write16 s.pc w)) = exec (decodeWord w) (s.setMem (s.mem.write16 s.pc w)).advance := by
  have hfetch : (s.setMem (s.mem.write16 s.pc w)).fetchWord = w := Memory.read16_write16 hm s.pc w
  rw [step_running (s := s.setMem (s.mem.write16 s.pc w)) hrun, State.fetchInstr, hfetch]

/-- Settles O42: the STORE's address is the pc, so its word is the next fetch. -/
theorem storeIsSeenByTheNextFetch : Obligations.StoreIsSeenByTheNextFetch := by
  intro s t reg1 reg2 hm h hpc hrun
  cases h
  have haddr : s.regAddr reg1 = s.pc := BitVec.eq_of_toNat_eq ((s.regAddr_toNat reg1).trans hpc.symm)
  rw [haddr]
  exact ⟨Memory.read16_write16 hm s.pc _, step_setMem_write16_pc hm hrun _⟩

/-- The loader's write of an instruction at the pc is the write of its word there (R95, R244). -/
theorem hostLoad_encode_pc (s : State) (i : Instr) :
    s.hostLoad s.pc.toNat (encode i) = s.setMem (s.mem.write16 s.pc (encodeWord i)) := by
  unfold State.hostLoad
  rw [BitVec.ofNat_toNat, BitVec.setWidth_eq]
  rfl

/-- Settles O8: the loaded word is fetched, and decodes to the instruction. -/
theorem loadedInstructionRunsNext : Obligations.LoadedInstructionRunsNext := by
  intro s i hrun hm hw
  rw [hostLoad_encode_pc, step_setMem_write16_pc hm hrun, decodeWord_encodeWord hw, Addr.ofNat_toNat_add]
  rfl

/-! ## When a step completes -/

/-- A string output completes unless no byte of memory is 0x00 (R180). -/
theorem State.emitString_completes_or_waits (s : State) (a : Addr) (k : Addr → State → State) :
    (∃ t, s.emitString a k = .next t) ∨
    (s.emitString a k = .fault .scanNeverEnds ∧ ∀ x : Addr, s.mem.read8 x ≠ 0) := by
  obtain hwait | ⟨bytes, last, -, hnext⟩ := s.emitString_cases a k
  · exact .inr hwait
  · exact .inl ⟨_, hnext⟩

/-- A request completes unless the console holds no answer and is silent (R182). -/
theorem State.onAnswer_completes_or_waits (s : State) (k : ConAnswer → Console → State) :
    (∃ t, s.onAnswer k = .next t) ∨
    (s.onAnswer k = .fault .stdinUnanswered ∧ s.console.pending = [] ∧ s.console.rest = .silent) := by
  unfold State.onAnswer
  obtain ⟨ans, rest, -, ha⟩ | ⟨-, -, ha⟩ | ⟨-, -, ha⟩ | ⟨hp, hr, ha⟩ := s.console.answer_cases <;> rw [ha]
  · exact .inl ⟨_, rfl⟩
  · exact .inl ⟨_, rfl⟩
  · exact .inl ⟨_, rfl⟩
  · exact .inr ⟨rfl, hp, hr⟩

theorem State.readInt_completes_or_waits (s : State) (src : RegIx) :
    (∃ t, s.readInt src = .next t) ∨
    (s.readInt src = .fault .stdinUnanswered ∧ s.console.pending = [] ∧ s.console.rest = .silent) :=
  s.readInt_eq_onAnswer src ▸ s.onAnswer_completes_or_waits _

theorem execStdinLine_completes_or_waits (s : State) (src : RegIx) :
    (∃ t, execStdinLine src s = .next t) ∨
    (execStdinLine src s = .fault .stdinUnanswered ∧ s.console.pending = [] ∧ s.console.rest = .silent) :=
  execStdinLine_eq_onAnswer s src ▸ s.onAnswer_completes_or_waits _

/-- An instruction completes unless it is a string output with no terminator, or an input that is not answered. -/
theorem exec_completes_or_waits (i : Instr) (s : State) :
    (∃ t, exec i s = .next t) ∨
    (exec i s = .fault .scanNeverEnds ∧ (∀ a : Addr, s.mem.read8 a ≠ 0) ∧
      (i = .stdoutStr ∨ ∃ r, i = .stdoutPstr r)) ∨
    (exec i s = .fault .stdinUnanswered ∧ s.console.pending = [] ∧ s.console.rest = .silent ∧
      ∃ m r, i = .stdinLine r ∨ i = .stdinInt r ∨ i = .stdinIntAlt23 m r ∨ i = .stdinIntAlt47 m r) := by
  cases i with
  | stdoutStr =>
    rw [exec_stdoutStr]
    exact (s.emitString_completes_or_waits ..).imp_right fun ⟨hf, hz⟩ => .inl ⟨hf, hz, .inl rfl⟩
  | stdoutPstr src =>
    rw [exec_stdoutPstr]
    exact (s.emitString_completes_or_waits ..).imp_right fun ⟨hf, hz⟩ => .inl ⟨hf, hz, .inr ⟨src, rfl⟩⟩
  | stdinLine src =>
    exact (execStdinLine_completes_or_waits s src).imp_right fun ⟨hf, hp, hr⟩ =>
      .inr ⟨hf, hp, hr, 0, src, .inl rfl⟩
  | stdinInt src =>
    exact (s.readInt_completes_or_waits src).imp_right fun ⟨hf, hp, hr⟩ =>
      .inr ⟨hf, hp, hr, 0, src, .inr (.inl rfl)⟩
  | stdinIntAlt23 mode src =>
    exact (s.readInt_completes_or_waits src).imp_right fun ⟨hf, hp, hr⟩ =>
      .inr ⟨hf, hp, hr, mode, src, .inr (.inr (.inl rfl))⟩
  | stdinIntAlt47 mode src =>
    exact (s.readInt_completes_or_waits src).imp_right fun ⟨hf, hp, hr⟩ =>
      .inr ⟨hf, hp, hr, mode, src, .inr (.inr (.inr rfl))⟩
  | _ => exact .inl ⟨_, rfl⟩

/-- Settles O10: a halted core's step completes, and a running one's is its instruction's. -/
theorem stepCompletesButForTwoWaits : Obligations.StepCompletesButForTwoWaits := by
  intro s
  cases hrun : s.halted with
  | true => exact .inl ⟨s, step_halted hrun⟩
  | false =>
    rw [step_running hrun]
    exact (exec_completes_or_waits s.fetchInstr s.advance).imp_right fun h =>
      h.imp (fun ⟨hf, hz, hi⟩ => ⟨hf, rfl, hz, hi⟩) (fun ⟨hf, hp, hr, hi⟩ => ⟨hf, rfl, hp, hr, hi⟩)

end Sys2Proof.Machine
end

section
/-! PROOF. The encoding (30_encoding.md): the encoder undoes the decoder on the bits that are read, and no word lies in two rows of the opcode table. -/

namespace Sys2Proof

/-! ## A word's fields, as the encoder writes them

A word that the encoder builds from `w`'s own leading fields is `w` under the mask of these fields. -/

/-- The top `n` bits of a word with zeros below them are the word under the mask of these bits. -/
theorem extract_append_zero {n k : Nat} (x : BitVec (n + k)) :
    x.extractLsb' k n ++ 0#k = x &&& (BitVec.allOnes n ++ 0#k) := by
  ext i hi
  simp only [BitVec.getElem_append, BitVec.getElem_extractLsb', BitVec.getElem_and, BitVec.getElem_allOnes]
  split
  · simp
  · rw [Nat.add_sub_cancel' (by omega), Bool.and_true, BitVec.getLsbD_eq_getElem hi]

theorem encA_zero_zero (op : BitVec 4) : encA op 0 0 = op ++ 0#12 := by
  revert op
  decide

theorem encA_zero (op : BitVec 4) (dst : BitVec 3) : encA op dst 0 = op ++ dst ++ 0#9 := by
  revert op dst
  decide

/-- RET's word in Format X is its word in Format A (R82, R85). -/
theorem encX_zero : encX 0 0 0 = encA 0xD 0 0 := by
  decide

theorem modeField_eq_regBits (w : Word) : modeField w = regBits (dstField w) := rfl

theorem reg1Field_eq_srcField (w : Word) : reg1Field w = srcField w := rfl

theorem opField_append_modeField (w : Word) : opField w ++ modeField w = w.extractLsb' 9 7 :=
  BitVec.extractLsb'_append_extractLsb'_eq_extractLsb' rfl

theorem opField_append_modeField_append_srcField (w : Word) :
    opField w ++ modeField w ++ regBits (srcField w) = w.extractLsb' 6 10 := by
  rw [opField_append_modeField]
  exact BitVec.extractLsb'_append_extractLsb'_eq_extractLsb' rfl

section Fields

variable {w : Word} {op : BitVec 4} {mode : BitVec 3}

theorem encA_opField (hop : opField w = op) : encA op 0 0 = w &&& 0xF000 := by
  rw [← hop, encA_zero_zero]
  exact extract_append_zero (n := 4) (k := 12) w

theorem encA_modeField (hop : opField w = op) (hmode : modeField w = mode) : encA op mode 0 = w &&& 0xFE00 := by
  rw [← hop, ← hmode, encA_zero, opField_append_modeField]
  exact extract_append_zero (n := 7) (k := 9) w

theorem encA_srcField (hop : opField w = op) (hmode : modeField w = mode) :
    encA op mode (regBits (srcField w)) = w &&& 0xFFC0 := by
  unfold encA
  rw [← hop, ← hmode, opField_append_modeField_append_srcField]
  exact extract_append_zero (n := 10) (k := 6) w

theorem encX_reg2Field (hop : opField w = 0xD#4) (hmode : modeField w = mode) :
    encX mode (regBits (reg1Field w)) (regBits (reg2Field w)) = w &&& 0xFFF8 := by
  have hreg2 : w.extractLsb' 6 10 ++ regBits (reg2Field w) = w.extractLsb' 3 13 :=
    BitVec.extractLsb'_append_extractLsb'_eq_extractLsb' rfl
  unfold encX
  rw [← hop, ← hmode, reg1Field_eq_srcField, opField_append_modeField_append_srcField, hreg2]
  exact extract_append_zero (n := 13) (k := 3) w

theorem encB_imm9Field (hop : opField w = op) : encB op (regBits (dstField w)) (imm9Field w) = w &&& 0xFFFF := by
  unfold encB
  rw [← hop, ← modeField_eq_regBits, opField_append_modeField]
  calc w.extractLsb' 9 7 ++ imm9Field w
    _ = w.extractLsb' 0 16 := BitVec.extractLsb'_append_extractLsb'_eq_extractLsb' rfl
    _ = w := BitVec.extractLsb'_eq_self
    _ = w &&& 0xFFFF := BitVec.and_allOnes.symm

end Fields

/-! ## What a word decodes to -/

/-- `i` has the form of the instruction that `w` decodes to: the op field of `w`, and under the ops 0xB, 0xC and 0xD its
mode field, are those of `i`'s constructor (R84, R86, R170, R176), and `i`'s operands are fields of `w` (R81). What more
is known of a mode or an op that is an operand, `decodeWord_wellFormed` says. -/
inductive DecodesTo (w : Word) : Instr → Prop
  | halt (hop : opField w = 0x0) : DecodesTo w .halt
  | nop (hop : opField w = 0x1) : DecodesTo w .nop
  | mov (hop : opField w = 0x2) : DecodesTo w (.mov (dstField w) (srcField w))
  | movi (hop : opField w = 0x3) : DecodesTo w (.movi (dstField w) (imm9Field w))
  | cmp (hop : opField w = 0x4) : DecodesTo w (.cmp (dstField w) (srcField w))
  | jmp (hop : opField w = 0x5) : DecodesTo w (.jmp (dstField w))
  | jz (hop : opField w = 0x6) : DecodesTo w (.jz (dstField w))
  | jnz (hop : opField w = 0x7) : DecodesTo w (.jnz (dstField w))
  | push (hop : opField w = 0x8) : DecodesTo w (.push (dstField w))
  | pop (hop : opField w = 0x9) : DecodesTo w (.pop (dstField w))
  | call (hop : opField w = 0xA) : DecodesTo w (.call (dstField w))
  | stdoutStr (hop : opField w = 0xB) (hmode : modeField w = 0) : DecodesTo w .stdoutStr
  | stdoutInt (hop : opField w = 0xB) (hmode : modeField w = 1) : DecodesTo w (.stdoutInt (srcField w))
  | stdoutPstr (hop : opField w = 0xB) (hmode : modeField w = 2) : DecodesTo w (.stdoutPstr (srcField w))
  | stdoutChr (hop : opField w = 0xB) (hmode : modeField w = 3) : DecodesTo w (.stdoutChr (srcField w))
  | stdoutRsvd (hop : opField w = 0xB) : DecodesTo w (.stdoutRsvd (modeField w))
  | stdinLine (hop : opField w = 0xC) (hmode : modeField w = 0) : DecodesTo w (.stdinLine (srcField w))
  | stdinInt (hop : opField w = 0xC) (hmode : modeField w = 1) : DecodesTo w (.stdinInt (srcField w))
  | stdinIntAlt23 (hop : opField w = 0xC) : DecodesTo w (.stdinIntAlt23 (modeField w) (srcField w))
  | stdinIntAlt47 (hop : opField w = 0xC) : DecodesTo w (.stdinIntAlt47 (modeField w) (srcField w))
  | ret (hop : opField w = 0xD) (hmode : modeField w = 0) : DecodesTo w .ret
  | load (hop : opField w = 0xD) (hmode : modeField w = 1) : DecodesTo w (.load (reg1Field w) (reg2Field w))
  | store (hop : opField w = 0xD) (hmode : modeField w = 2) : DecodesTo w (.store (reg1Field w) (reg2Field w))
  | add (hop : opField w = 0xD) (hmode : modeField w = 3) : DecodesTo w (.add (reg1Field w) (reg2Field w))
  | sub (hop : opField w = 0xD) (hmode : modeField w = 4) : DecodesTo w (.sub (reg1Field w) (reg2Field w))
  | and (hop : opField w = 0xD) (hmode : modeField w = 5) : DecodesTo w (.and (reg1Field w) (reg2Field w))
  | or (hop : opField w = 0xD) (hmode : modeField w = 6) : DecodesTo w (.or (reg1Field w) (reg2Field w))
  | xor (hop : opField w = 0xD) (hmode : modeField w = 7) : DecodesTo w (.xor (reg1Field w) (reg2Field w))
  | illegal : DecodesTo w (.illegal (opField w))

theorem opField_bits (w : Word) :
    opField w = BitVec.ofBool (w.getLsbD 15) ++ BitVec.ofBool (w.getLsbD 14) ++ BitVec.ofBool (w.getLsbD 13) ++
      BitVec.ofBool (w.getLsbD 12) := by
  have h : ∀ x : BitVec 4, x = BitVec.ofBool (x.getLsbD 3) ++ BitVec.ofBool (x.getLsbD 2) ++
      BitVec.ofBool (x.getLsbD 1) ++ BitVec.ofBool (x.getLsbD 0) := by decide
  simpa [opField] using h (opField w)

theorem modeField_bits (w : Word) :
    modeField w = BitVec.ofBool (w.getLsbD 11) ++ BitVec.ofBool (w.getLsbD 10) ++ BitVec.ofBool (w.getLsbD 9) := by
  have h : ∀ x : BitVec 3, x = BitVec.ofBool (x.getLsbD 2) ++ BitVec.ofBool (x.getLsbD 1) ++
      BitVec.ofBool (x.getLsbD 0) := by decide
  simpa [modeField] using h (modeField w)

section Decode

variable {w : Word} {i : Instr}

theorem decodesTo_decodeStdout (hop : opField w = 0xB) : DecodesTo w (decodeStdout w) := by
  have hmode := modeField_bits w
  unfold decodeStdout
  split <;> simp only [*] at hmode
  all_goals constructor <;> assumption

theorem decodesTo_decodeStdin (hop : opField w = 0xC) : DecodesTo w (decodeStdin w) := by
  have hmode := modeField_bits w
  unfold decodeStdin
  split <;> simp only [*] at hmode
  all_goals constructor <;> assumption

theorem decodesTo_decodeExt (hop : opField w = 0xD) : DecodesTo w (decodeExt w) := by
  have hmode := modeField_bits w
  unfold decodeExt
  split <;> simp only [*] at hmode
  all_goals constructor <;> assumption

/-- Every word decodes to an instruction of its form: in each branch of the decoder the bits it branched on are the
field's value. -/
theorem decodesTo_decodeWord (w : Word) : DecodesTo w (decodeWord w) := by
  have hop := opField_bits w
  unfold decodeWord
  split <;> simp only [*] at hop
  case h_12 => exact decodesTo_decodeStdout hop
  case h_13 => exact decodesTo_decodeStdin hop
  case h_14 => exact decodesTo_decodeExt hop
  case h_15 => exact .illegal
  all_goals constructor; assumption

/-- The encoder writes back the bits that the decoder read, and zeros for the others (R90, R95). -/
theorem DecodesTo.encodeWord_eq (h : DecodesTo w i) : encodeWord i = w &&& i.readMask := by
  cases h with
  | halt hop | nop hop => exact encA_opField hop
  | illegal => exact encA_opField rfl
  | jmp hop | jz hop | jnz hop | push hop | pop hop | call hop => exact encA_modeField hop (modeField_eq_regBits w)
  | stdoutRsvd hop => exact encA_modeField hop rfl
  | stdoutStr hop hmode => exact encA_modeField hop hmode
  | ret hop hmode => exact encX_zero.trans (encA_modeField hop hmode)
  | mov hop | cmp hop => exact encA_srcField hop (modeField_eq_regBits w)
  | stdinIntAlt23 hop | stdinIntAlt47 hop => exact encA_srcField hop rfl
  | stdoutInt hop hmode | stdoutPstr hop hmode | stdoutChr hop hmode | stdinLine hop hmode | stdinInt hop hmode =>
    exact encA_srcField hop hmode
  | movi hop => exact encB_imm9Field hop
  | load hop hmode | store hop hmode | add hop hmode | sub hop hmode | and hop hmode | or hop hmode | xor hop hmode =>
    exact encX_reg2Field hop hmode

theorem opField_toNat (w : Word) : (opField w).toNat = w.toNat / 4096 := by
  simp only [opField, BitVec.extractLsb'_toNat]
  omega

/-- Only the illegal opcodes have an op field of 0xE or 0xF (R91). -/
theorem DecodesTo.eq_illegal (h : DecodesTo w i) (hw : 14 ≤ (opField w).toNat) : i = .illegal (opField w) := by
  cases h
  case illegal => rfl
  all_goals
    rw [‹opField w = _›] at hw
    exact absurd hw (by decide)

theorem DecodesTo.op_eq {op : BitVec 4} (h : DecodesTo w (.illegal op)) : op = opField w := by
  cases h
  rfl

end Decode

/-- Encoding is the inverse of decoding on the bits that are read. -/
theorem encodeWord_decodeWord (w : Word) : encodeWord (decodeWord w) = w &&& (decodeWord w).readMask :=
  (decodesTo_decodeWord w).encodeWord_eq

/-! ## The rows of the opcode table -/

/-- The opcode table (R89): each row with the bits that its instructions read, from one instruction of the row. -/
def opcodeTable : List (TableRow × Word) :=
  [Instr.halt, .nop, .mov 0 0, .movi 0 0, .cmp 0 0, .jmp 0, .jz 0, .jnz 0, .push 0, .pop 0, .call 0, .stdoutStr,
    .stdoutInt 0, .stdoutPstr 0, .stdoutChr 0, .stdoutRsvd 4, .stdinLine 0, .stdinInt 0, .stdinIntAlt23 2 0,
    .stdinIntAlt47 4 0, .ret, .load 0 0, .store 0 0, .add 0 0, .sub 0 0, .and 0 0, .or 0 0, .xor 0 0, .illegal 0xE].map
    fun i => (i.row, i.readMask)

/-- Every instruction's row is in the table: neither the row nor the read bits depend on the operands. -/
theorem row_mem_opcodeTable (i : Instr) : (i.row, i.readMask) ∈ opcodeTable := by
  cases i <;> exact of_decide_eq_true rfl

/-- Any two rows of the table differ in a bit that both fix. -/
theorem opcodeTable_disjoint :
    ∀ p ∈ opcodeTable, ∀ q ∈ opcodeTable, p.1.value &&& q.1.mask = q.1.value &&& p.1.mask → p = q := by
  decide

/-- The bits that a row fixes are read. -/
theorem opcodeTable_reads_fixed : ∀ p ∈ opcodeTable, p.2 &&& p.1.mask = p.1.mask := by
  decide

theorem readMask_and_row_mask (i : Instr) : i.readMask &&& i.row.mask = i.row.mask :=
  opcodeTable_reads_fixed _ (row_mem_opcodeTable i)

/-- A word lies in one row only: on the bits that two rows fix, both would have the word's own. -/
theorem row_unique {i j : Instr} {w : Word} (hi : w &&& i.row.mask = i.row.value)
    (hj : w &&& j.row.mask = j.row.value) : (i.row, i.readMask) = (j.row, j.readMask) := by
  have hcommon : i.row.value &&& j.row.mask = j.row.value &&& i.row.mask := by
    rw [← hi, ← hj, BitVec.and_assoc, BitVec.and_assoc, BitVec.and_comm i.row.mask]
  exact opcodeTable_disjoint _ (row_mem_opcodeTable i) _ (row_mem_opcodeTable j) hcommon

end Sys2Proof

namespace Sys2Proof.Laws.EncodeFitsRow

/-- The family's statement for every instruction. -/
theorem all : ∀ i : Instr, Statement i
  | .halt => halt
  | .nop => nop
  | .mov _ _ => mov _ _
  | .movi _ _ => movi _ _
  | .cmp _ _ => cmp _ _
  | .jmp _ => jmp _
  | .jz _ => jz _
  | .jnz _ => jnz _
  | .push _ => push _
  | .pop _ => pop _
  | .call _ => call _
  | .stdoutStr => stdoutStr
  | .stdoutInt _ => stdoutInt _
  | .stdoutPstr _ => stdoutPstr _
  | .stdoutChr _ => stdoutChr _
  | .stdoutRsvd _ => stdoutRsvd _
  | .stdinLine _ => stdinLine _
  | .stdinInt _ => stdinInt _
  | .stdinIntAlt23 _ _ => stdinIntAlt23 _ _
  | .stdinIntAlt47 _ _ => stdinIntAlt47 _ _
  | .ret => ret
  | .load _ _ => load _ _
  | .store _ _ => store _ _
  | .add _ _ => add _ _
  | .sub _ _ => sub _ _
  | .and _ _ => and _ _
  | .or _ _ => or _ _
  | .xor _ _ => xor _ _
  | .illegal _ => illegal _

end Sys2Proof.Laws.EncodeFitsRow

namespace Sys2Proof

/-- A word lies in the row of its instruction: it has the bits that the row fixes from the canonical word, which does. -/
theorem decodeWord_row (w : Word) : w &&& (decodeWord w).row.mask = (decodeWord w).row.value :=
  calc w &&& (decodeWord w).row.mask
    _ = w &&& (decodeWord w).readMask &&& (decodeWord w).row.mask := by rw [BitVec.and_assoc, readMask_and_row_mask]
    _ = encodeWord (decodeWord w) &&& (decodeWord w).row.mask := by rw [encodeWord_decodeWord]
    _ = (decodeWord w).row.value := Laws.EncodeFitsRow.all _ (decodeWord_wellFormed w)

/-! ## The statements of the encoding -/

/-- Settles O1: the two bytes decode as the encoder's word does, and that word decodes to the instruction. -/
theorem decodeReadsBackEveryEncoding : Obligations.DecodeReadsBackEveryEncoding := by
  intro i rest hw
  rw [decode_encode_append, decodeWord_encodeWord hw]

/-- Settles O2: a word that agrees on the read bits lies in the same row, so the same bits of it are read, and the two
have one canonical word. -/
theorem unusedBitsAreIgnored : Obligations.UnusedBitsAreIgnored := by
  intro w w' h
  have hfixed : w' &&& (decodeWord w).row.mask = (decodeWord w).row.value := by
    rw [← decodeWord_row w, ← readMask_and_row_mask, ← BitVec.and_assoc, ← BitVec.and_assoc, h]
  have hmask : (decodeWord w').readMask = (decodeWord w).readMask :=
    congrArg Prod.snd (row_unique (decodeWord_row w') hfixed)
  have hword : encodeWord (decodeWord w') = encodeWord (decodeWord w) := by
    rw [encodeWord_decodeWord, encodeWord_decodeWord, hmask, h]
  rw [← decodeWord_encodeWord (decodeWord_wellFormed w'), hword, decodeWord_encodeWord (decodeWord_wellFormed w)]

/-- Settles O3, by the form of what the word decodes to. -/
theorem encoderWritesZeroInUnusedBits : Obligations.EncoderWritesZeroInUnusedBits :=
  encodeWord_decodeWord

/-- Settles O4: its canonical word puts a word in its row, and the rows are disjoint. -/
theorem everyWordLiesInItsTableRowAlone : Obligations.EveryWordLiesInItsTableRowAlone :=
  fun w _ => ⟨decodeWord_row w, fun hj => congrArg Prod.fst (row_unique hj (decodeWord_row w))⟩

open Machine in
/-- Settles O5: the words from 0xE000 are those with an op field of at least 0xE. -/
theorem illegalWordsAreThoseFromE000 : Obligations.IllegalWordsAreThoseFromE000 := by
  intro w
  have hop := opField_toNat w
  have hillegal (h : 0xE000 ≤ w.toNat) : decodeWord w = .illegal (opField w) :=
    (decodesTo_decodeWord w).eq_illegal (by omega)
  refine ⟨⟨?_, fun h => ⟨_, hillegal h⟩⟩, fun h s => ?_⟩
  · rintro ⟨op, hdec⟩
    have hfield : op = opField w := (hdec ▸ decodesTo_decodeWord w).op_eq
    have hwf : (Instr.illegal op).WellFormed = true := hdec ▸ decodeWord_wellFormed w
    have hge : 14 ≤ op.toNat := of_decide_eq_true hwf
    rw [hfield] at hge
    omega
  · rw [hillegal h]
    exact ⟨s.raiseHalt .illegalOpcode (opField w), rfl, rfl, rfl, hop⟩

/-- Settles O6, by running the decoder on the eight words. -/
theorem specWordsDecodeAsWritten : Obligations.SpecWordsDecodeAsWritten := by
  unfold Obligations.SpecWordsDecodeAsWritten
  decide

end Sys2Proof
end

section
/-! PROOF. The engine (40_engine.md): the step and the run, NOP and the halts, and what the ALU instructions store. -/

namespace Sys2Proof

/-! ## Decoding from the read bits -/

/-- A word with an instruction's canonical word in the bits that the instruction reads decodes to it, whatever its other
bits hold (R90). -/
theorem decodeWord_of_readBits {w : Word} {i : Instr} (hw : i.WellFormed = true)
    (h : w &&& i.readMask = encodeWord i) : decodeWord w = i := by
  have hcanon : decodeWord (encodeWord i) = i := decodeWord_encodeWord hw
  refine (unusedBitsAreIgnored (encodeWord i) w ?_).trans hcanon
  rw [hcanon, ← h, BitVec.and_assoc, BitVec.and_self]

/-- NOP reads its op only (R114). -/
theorem decodeWord_nop {w : Word} (hop : opField w = 0x1) : decodeWord w = .nop :=
  decodeWord_of_readBits rfl (encA_opField hop).symm

end Sys2Proof

namespace Sys2Proof.Machine

variable (s : State) {addr : Addr}

/-! ## The fetch -/

/-- The two bytes at the pc decode to the fetched instruction (R111). -/
theorem decode_fetch : decode [s.mem.read8 s.pc, s.mem.read8 (s.pc + 1)] = .ok (s.fetchInstr, []) := rfl

/-- The advance, with the pc as a number reduced mod 2^20 (R111). -/
theorem State.advance_eq : s.advance = { s with pc := BitVec.ofNat 20 (s.pc.toNat + 2) } := by
  rw [Addr.ofNat_toNat_add]
  rfl

/-- Settles O7: the bytes at the pc decode to the fetched instruction, and to no other. -/
theorem stepRunsTheInstructionAtThePc : Obligations.StepRunsTheInstructionAtThePc := by
  intro s i hrun hdec
  rw [decode_fetch] at hdec
  cases hdec
  rw [step_running hrun, State.advance_eq]

/-! ## The run -/

section Sequence

variable {σ φ ρ : Type}

/-- An outcome's next state goes on to `k`; a fault or a refusal stays. -/
def onNext (o : Host.Outcome σ φ ρ) (k : σ → Host.Outcome σ φ ρ) : Host.Outcome σ φ ρ :=
  match o with
  | .next t => k t
  | .fault e => .fault e
  | .refused e => .refused e

@[simp] theorem onNext_next (t : σ) (k : σ → Host.Outcome σ φ ρ) : onNext (.next t) k = k t := rfl

theorem onNext_assoc (o : Host.Outcome σ φ ρ) (k l : σ → Host.Outcome σ φ ρ) :
    onNext (onNext o k) l = onNext o fun t => onNext (k t) l := by
  cases o <;> rfl

end Sequence

/-- A machine's run of one step more is the step, then the run. -/
theorem run_succ (M : Host.Core) (n : Nat) (t : M.State) : M.run (n + 1) t = onNext (M.step t) (M.run n) := by
  rw [Host.Core.run]
  cases M.step t <;> rfl

theorem State.hostRun_halted {s : State} (h : s.halted = true) (n : Nat) : s.hostRun n = .next s := by
  cases n with
  | zero => rfl
  | succ n => exact if_pos h

/-- The host's run of one step more is the step, then the run: to stop at a halted core or to step it is the same (R116,
R117). -/
theorem State.hostRun_succ (n : Nat) : s.hostRun (n + 1) = onNext (step s) (State.hostRun n) := by
  cases hrun : s.halted with
  | true => rw [step_halted hrun, onNext_next, State.hostRun_halted hrun, State.hostRun_halted hrun]
  | false =>
    rw [State.hostRun, if_neg (ne_true_of_eq_false hrun)]
    cases step s <;> rfl

theorem State.hostRun_eq_coreRun (n : Nat) : s.hostRun n = core.run n s := by
  induction n generalizing s with
  | zero => rfl
  | succ n ih =>
    have hcore : core.run (n + 1) s = onNext (step s) (core.run n) := run_succ core n s
    rw [State.hostRun_succ, hcore, funext ih]

/-- A longer run goes on from where a shorter one stopped (R117). -/
theorem State.hostRun_add (n m : Nat) : s.hostRun (n + m) = onNext (s.hostRun n) (State.hostRun m) := by
  induction n generalizing s with
  | zero => rw [Nat.zero_add]; rfl
  | succ n ih => rw [Nat.succ_add, State.hostRun_succ, State.hostRun_succ, onNext_assoc, funext ih]

/-- Settles O54: both runs go by the step, and runs compose. -/
theorem runIsTheStepRepeated : Obligations.RunIsTheStepRepeated := by
  intro n m s
  refine ⟨s.hostRun_eq_coreRun n, fun t ht => ?_⟩
  rw [State.hostRun_add, ht, onNext_next]

/-- Settles O9: the machine's run is the host's, which stops at a halted core. -/
theorem haltedCoreStaysAsItIs : Obligations.HaltedCoreStaysAsItIs :=
  fun s n h => ⟨step_halted h, (s.hostRun_eq_coreRun n).symm.trans (State.hostRun_halted h n)⟩

/-! ## NOP and the halts -/

/-- Settles O11: a word of op 1 decodes to NOP, whose step is the fetch's advance. -/
theorem nopOnlyAdvancesThePc : Obligations.NopOnlyAdvancesThePc := by
  refine fun s => ⟨rfl, fun hrun hop => ?_⟩
  have hnop : s.fetchInstr = .nop := decodeWord_nop (BitVec.eq_of_toNat_eq ((opField_toNat _).trans hop))
  rw [step_running hrun, hnop, ← State.advance_eq]
  rfl

/-- After the fetch the address that a halt records is the one the pc came from (R12, R212). -/
theorem State.raiseHalt_eq (h : s.pc = addr + 2) (cause : HaltCause) (op : BitVec 4) :
    s.raiseHalt cause op = { s with halted := true, latches := { cause := cause, op := op, addr := addr } } := by
  have haddr : s.fetchAddr = addr := by rw [State.fetchAddr, h, BitVec.add_sub_cancel]
  rw [State.raiseHalt, haddr]

/-- Settles O13: HALT and the illegal opcodes raise the halt with their cause and op. -/
theorem haltRecordsCauseOpAndAddress : Obligations.HaltRecordsCauseOpAndAddress :=
  fun s _ h => ⟨congrArg _ (s.raiseHalt_eq h .haltInstr 0), fun op => congrArg _ (s.raiseHalt_eq h .illegalOpcode op)⟩

/-! ## Storing a result -/

/-- A stored ALU result changes its register and the flags only. -/
theorem State.writeAlu_frame (d : RegIx) (rf : Word × Flags) :
    SameRegsBut d s (s.writeAlu d rf) ∧ (s.writeAlu d rf).pc = s.pc ∧ (s.writeAlu d rf).sp = s.sp ∧
      SameRunState s (s.writeAlu d rf) ∧ SameMemory s (s.writeAlu d rf) ∧
      (s.writeAlu d rf).console = s.console :=
  ⟨fun _ hr => (State.reg_writeAlu ..).trans (if_neg hr), rfl, rfl, ⟨rfl, rfl, rfl⟩, fun _ => rfl, rfl⟩

theorem State.reg_writeAlu_self (d : RegIx) (rf : Word × Flags) : (s.writeAlu d rf).reg d = rf.1 :=
  (State.reg_writeAlu ..).trans (if_pos rfl)

/-- A result that sets Z and S only is an ALU result with these flags (R120). -/
theorem State.writeResult_eq_writeAlu (d : RegIx) (v : Word) :
    s.writeResult d v = s.writeAlu d (v, zs v s.flags) := rfl

/-! ## ADD and SUB -/

theorem addAlu_toNat (a b : Word) (f : Flags) : (addAlu a b f).1.toNat = (a.toNat + b.toNat) % 65536 :=
  BitVec.toNat_ofNat ..

/-- SubALU's result as a number (R122). -/
theorem subAlu_toNat (a b : Word) (w : Bool) (f : Flags) :
    ((subAlu a b w f).1.toNat : Int) = (a.toNat - b.toNat : Int) % 65536 := by
  have ha := a.isLt
  have hb := b.isLt
  rw [subAlu_result, BitVec.toNat_sub]
  omega

theorem addAlu_v_iff (a b : Word) (f : Flags) :
    (addAlu a b f).2.v = true ↔ a.msb = b.msb ∧ (addAlu a b f).1.msb ≠ a.msb := by
  simp only [← getLsbD_fifteen]
  exact Bool.and_eq_true_iff.trans (and_congr beq_iff_eq bne_iff_ne)

theorem subAlu_v_iff (a b : Word) (f : Flags) :
    (subAlu a b true f).2.v = true ↔ a.msb ≠ b.msb ∧ (subAlu a b true f).1.msb ≠ a.msb := by
  simp only [← getLsbD_fifteen]
  exact Bool.and_eq_true_iff.trans (and_congr bne_iff_ne bne_iff_ne)

/-- Settles O33: AddALU's result and flags, stored. -/
theorem addStoresTheSumAndFourFlags : Obligations.AddStoresTheSumAndFourFlags := by
  intro s reg1 reg2
  refine ⟨s.writeAlu reg1 (addAlu (s.reg reg1) (s.reg reg2) s.flags), rfl, ?_⟩
  rw [State.reg_writeAlu_self, State.writeAlu_flags]
  exact ⟨addAlu_toNat .., rfl, getLsbD_fifteen _, rfl, addAlu_v_iff .., s.writeAlu_frame ..⟩

/-- Settles O34: SubALU's result and flags, V among them, stored. -/
theorem subStoresTheDifferenceAndFourFlags : Obligations.SubStoresTheDifferenceAndFourFlags := by
  intro s reg1 reg2
  refine ⟨s.writeAlu reg1 (subAlu (s.reg reg1) (s.reg reg2) true s.flags), rfl, ?_⟩
  rw [State.reg_writeAlu_self, State.writeAlu_flags]
  exact ⟨subAlu_toNat .., rfl, getLsbD_fifteen _, rfl, subAlu_v_iff .., s.writeAlu_frame ..⟩

/-! ## AND, OR and XOR -/

/-- The three logic instructions write a result with their operation in each bit (R123). -/
theorem exec_logic {reg1 reg2 : RegIx} {i : Instr} {op : Bool → Bool → Bool}
    (h : (i, op) ∈ [(Instr.and reg1 reg2, Bool.and), (.or reg1 reg2, Bool.or), (.xor reg1 reg2, Bool.xor)]) :
    ∃ v : Word, exec i s = .next (s.writeResult reg1 v) ∧
      ∀ k, v.getLsbD k = op ((s.reg reg1).getLsbD k) ((s.reg reg2).getLsbD k) := by
  simp only [List.mem_cons, Prod.mk.injEq, List.not_mem_nil, or_false] at h
  obtain ⟨rfl, rfl⟩ | ⟨rfl, rfl⟩ | ⟨rfl, rfl⟩ := h
  · exact ⟨_, rfl, fun _ => BitVec.getLsbD_and⟩
  · exact ⟨_, rfl, fun _ => BitVec.getLsbD_or⟩
  · exact ⟨_, rfl, fun _ => BitVec.getLsbD_xor⟩

/-- Settles O36: the three differ in the operation only. -/
theorem logicStoresTheBitwiseResult : Obligations.LogicStoresTheBitwiseResult := by
  intro s reg1 reg2 i op h
  obtain ⟨v, hexec, hbits⟩ := exec_logic s h
  refine ⟨_, hexec, ?_⟩
  rw [State.writeResult_eq_writeAlu, State.reg_writeAlu_self]
  exact ⟨fun k _ => hbits k, zeroSignOf_zs v s.flags, s.writeAlu_frame ..⟩

end Sys2Proof.Machine
end

section
/-! PROOF. The moves and the compare (41_moves_compare.md): the sign-extended immediate, and the flags of a difference. -/

namespace Sys2Proof.Machine

/-! ## The immediate -/

/-- Below bit 9 both hold the immediate's own bits, from bit 9 on its sign bit (R87). -/
theorem sext16_eq_signExtend (imm9 : BitVec 9) : sext16 imm9 = imm9.signExtend 16 := by
  have hfill : ∀ k < 16, (0xFE00 : Word).getLsbD k = !decide (k < 9) := by decide
  have hsign : imm9.msb = imm9.getLsbD 8 := BitVec.msb_eq_getLsbD_last imm9
  refine BitVec.eq_of_getLsbD_eq fun k hk => ?_
  rw [BitVec.getLsbD_signExtend, hsign, sext16, apply_ite (BitVec.getLsbD · k), BitVec.getLsbD_or,
    BitVec.getLsbD_setWidth, hfill k hk]
  by_cases hlow : k < 9
  · simp [hk, hlow]
  · simp [hk, hlow, BitVec.getLsbD_of_ge imm9 k (Nat.le_of_not_lt hlow)]

theorem sext16_toInt (imm9 : BitVec 9) : (sext16 imm9).toInt = imm9.toInt := by
  rw [sext16_eq_signExtend, BitVec.toInt_signExtend_of_le (by decide)]

/-! ## MOV and MOVI -/

variable (s : State)

/-- A stored result: its register, Z and S, and nothing else (R120). -/
theorem State.writeResult_effect (d : RegIx) (v : Word) :
    (s.writeResult d v).reg d = v ∧ ZeroSignOf v s.flags (s.writeResult d v).flags ∧
      SameRegsBut d s (s.writeResult d v) ∧ (s.writeResult d v).pc = s.pc ∧ (s.writeResult d v).sp = s.sp ∧
      SameRunState s (s.writeResult d v) ∧ SameMemory s (s.writeResult d v) ∧
      (s.writeResult d v).console = s.console :=
  ⟨s.reg_writeAlu_self d (v, zs v s.flags), zeroSignOf_zs v s.flags, s.writeAlu_frame d (v, zs v s.flags)⟩

/-- Settles O14: both store a result, MOVI the sign-extended immediate. -/
theorem movesWriteTheValueAndSetZeroSign : Obligations.MovesWriteTheValueAndSetZeroSign := by
  refine fun s dst src imm9 => ⟨⟨_, rfl, s.writeResult_effect dst (s.reg src)⟩, ⟨_, rfl, ?_⟩⟩
  obtain ⟨hreg, hflags, hframe⟩ := s.writeResult_effect dst (sext16 imm9)
  rw [hreg]
  exact ⟨sext16_toInt imm9, hflags, hframe⟩

/-! ## CMP -/

/-- Z of a difference says that the operands are equal (R122). -/
theorem subAlu_z (a b : Word) (w : Bool) (f : Flags) : (subAlu a b w f).2.z = decide (a = b) := by
  have hz : (subAlu a b w f).2.z = decide ((subAlu a b w f).1 = 0) := rfl
  rw [hz, subAlu_result, decide_eq_decide]
  exact sub_eq_zero

theorem subAlu_s (a b : Word) (w : Bool) (f : Flags) : (subAlu a b w f).2.s = (a - b).msb := by
  have hs : (subAlu a b w f).2.s = (subAlu a b w f).1.getLsbD 15 := rfl
  rw [hs, subAlu_result, getLsbD_fifteen]

theorem subAlu_c (a b : Word) (w : Bool) (f : Flags) : (subAlu a b w f).2.c = decide (a.toNat < b.toNat) := rfl

/-- New flags leave every other field. -/
theorem State.setFlags_frame (f : Flags) :
    SameRegs s (s.setFlags f) ∧ (s.setFlags f).pc = s.pc ∧ (s.setFlags f).sp = s.sp ∧
      SameRunState s (s.setFlags f) ∧ SameMemory s (s.setFlags f) ∧ (s.setFlags f).console = s.console :=
  ⟨fun _ => rfl, rfl, rfl, ⟨rfl, rfl, rfl⟩, fun _ => rfl, rfl⟩

/-- Settles O15: the flags of SubALU without V, and no result stored. -/
theorem cmpComparesAndWritesNoRegister : Obligations.CmpComparesAndWritesNoRegister :=
  fun s _ _ => ⟨_, rfl, subAlu_z .., subAlu_s .., subAlu_c .., subAlu_false_v .., s.setFlags_frame _⟩

end Sys2Proof.Machine
end

section
/-! PROOF. The jumps (42_jumps.md): each sets the pc and leaves the rest of the state. -/

namespace Sys2Proof.Machine

/-- Setting the pc is an update of the pc alone. -/
theorem State.setPc_changes_only_pc (s : State) (target : Addr) :
    s.setPc target = { s with pc := (s.setPc target).pc } := rfl

/-- Settles O16: a register's address has the register's value. -/
theorem jmpGoesToTheRegistersAddress : Obligations.JmpGoesToTheRegistersAddress :=
  fun s dst => ⟨s.setPc (s.regAddr dst), rfl, s.regAddr_toNat dst, s.setPc_changes_only_pc _⟩

/-- Settles O17: both set the pc, by Z, to the register's address or to the pc itself. -/
theorem conditionalJumpsTestZero : Obligations.ConditionalJumpsTestZero := by
  intro s dst
  constructor
  · refine ⟨_, exec_jz dst s, s.setPc_changes_only_pc _, fun taken => ?_, fun notTaken => ?_⟩
    · simp [taken]
    · simp [notTaken]
  · refine ⟨_, exec_jnz dst s, s.setPc_changes_only_pc _, fun taken => ?_, fun notTaken => ?_⟩
    · simp [taken]
    · simp [notTaken]

end Sys2Proof.Machine
end

section
/-! PROOF. The stack and the calls (43_stack_calls.md): what a push writes and leaves, the two words RET pops, and
CALL with RET, PUSH with POP, as inverses. -/

namespace Sys2Proof.Machine

variable (s : State)

/-! ## PUSH -/

/-- The byte above the stack's new top is the one below its old top (R160). -/
theorem Addr.sub_two_add_one (a : Addr) : a - 2 + 1 = a - 1 := by bv_omega

/-- A push writes the low byte at its new sp (R160). -/
theorem State.push_low_toNat (hm : s.mem.wf = true) (v : Word) :
    ((s.push v).mem.read8 (s.sp - 2)).toNat = v.toNat % 256 := by
  rw [s.push_read8 hm, if_neg (Addr.ne_add_one _), if_pos rfl]
  exact extract_low_toNat v

/-- A push writes the high byte just below its old sp (R160). -/
theorem State.push_high_toNat (hm : s.mem.wf = true) (v : Word) :
    ((s.push v).mem.read8 (s.sp - 1)).toNat = v.toNat / 256 := by
  rw [s.push_read8 hm, Addr.sub_two_add_one, if_pos rfl]
  exact extract_high_toNat v

/-- A push leaves every byte but the two it writes. -/
theorem State.push_read8_of_ne (hm : s.mem.wf = true) (v : Word) {a : Addr} (hlow : a ≠ s.sp - 2)
    (hhigh : a ≠ s.sp - 1) : (s.push v).mem.read8 a = s.mem.read8 a := by
  rw [s.push_read8 hm, Addr.sub_two_add_one, if_neg hhigh, if_neg hlow]

/-- Settles O18: the effect of one push. -/
theorem pushStoresTheRegisterBelowTheStack : Obligations.PushStoresTheRegisterBelowTheStack :=
  fun s dst hm => ⟨s.push (s.reg dst), rfl, rfl, s.push_low_toNat hm _, s.push_high_toNat hm _,
    sameMemoryOutside_of_write16 hm rfl, fun _ => rfl, rfl, rfl, ⟨rfl, rfl, rfl⟩, rfl⟩

/-! ## POP -/

/-- Settles O19: POP stores the top of the stack as a result, in the state after the drop. -/
theorem popLoadsTheTopOfTheStack : Obligations.PopLoadsTheTopOfTheStack := by
  intro s dst
  obtain ⟨hreg, hflags, hregs, hpc, hsp, hrun, hmem, hconsole⟩ := s.drop.writeResult_effect dst s.top
  refine ⟨_, rfl, ?_⟩
  rw [hreg]
  exact ⟨Memory.read16_toNat s.mem s.sp, hflags, hsp, hregs, hpc, hrun, hmem, hconsole⟩

/-- Settles O23: the pop's word is the one pushed, and its sp the one before the push. -/
theorem popUndoesPush : Obligations.PopUndoesPush := by
  intro s src dst hm
  obtain ⟨hreg, -⟩ := (s.push (s.reg src)).drop.writeResult_effect dst (s.push (s.reg src)).top
  exact ⟨_, _, rfl, rfl, hreg.trans (s.top_push hm _), s.drop_push_sp _⟩

/-! ## CALL -/

theorem retLow_toNat (ret : Addr) : (retLow ret).toNat = ret.toNat % 65536 := BitVec.extractLsb'_toNat ..

/-- The high word of a return address is what stands above its low 16 bits (R164). -/
theorem retHigh_toNat (ret : Addr) : (retHigh ret).toNat = ret.toNat / 65536 := by
  have := ret.isLt
  simp only [retHigh, BitVec.toNat_setWidth, BitVec.extractLsb'_toNat, Nat.shiftRight_eq_div_pow]
  omega

/-- The bytes of the lower of two pushed words are the second push's (R164). -/
theorem State.push_push_low_word (hm : s.mem.wf = true) (lo hi : Word) :
    (((s.push lo).push hi).mem.read8 (s.sp - 4)).toNat = hi.toNat % 256 ∧
      (((s.push lo).push hi).mem.read8 (s.sp - 3)).toNat = hi.toNat / 256 := by
  rw [show s.sp - 4 = (s.push lo).sp - 2 from (BitVec.sub_sub s.sp 2 2).symm,
    show s.sp - 3 = (s.push lo).sp - 1 from (BitVec.sub_sub s.sp 2 1).symm]
  exact ⟨(s.push lo).push_low_toNat (s.push_wf hm lo) hi, (s.push lo).push_high_toNat (s.push_wf hm lo) hi⟩

/-- The bytes of the upper of two pushed words are the first push's: the second leaves them (R164). -/
theorem State.push_push_high_word (hm : s.mem.wf = true) (lo hi : Word) :
    (((s.push lo).push hi).mem.read8 (s.sp - 2)).toNat = lo.toNat % 256 ∧
      (((s.push lo).push hi).mem.read8 (s.sp - 1)).toNat = lo.toNat / 256 := by
  have hleft {a : Addr} := (s.push lo).push_read8_of_ne (s.push_wf hm lo) hi (a := a)
  rw [State.push_sp] at hleft
  rw [hleft (by bv_omega) (by bv_omega), hleft (by bv_omega) (by bv_omega)]
  exact ⟨s.push_low_toNat hm lo, s.push_high_toNat hm lo⟩

/-- Settles O20: two pushes, the low word first, and a jump. -/
theorem callPushesTheReturnAddress : Obligations.CallPushesTheReturnAddress := by
  intro s dst hm
  obtain ⟨hbyte0, hbyte1⟩ := s.push_push_high_word hm (retLow s.pc) (retHigh s.pc)
  obtain ⟨hbyte2, hbyte3⟩ := s.push_push_low_word hm (retLow s.pc) (retHigh s.pc)
  have hpc := s.pc.isLt
  rw [retLow_toNat] at hbyte0 hbyte1
  rw [retHigh_toNat] at hbyte2 hbyte3
  exact ⟨_, rfl, s.regAddr_toNat dst, BitVec.sub_sub s.sp 2 2, hbyte0.trans (by omega), hbyte1.trans (by omega),
    hbyte2.trans (by omega), BitVec.eq_of_toNat_eq (hbyte3.trans (Nat.div_eq_of_lt (by omega))),
    sameMemoryOutside_push_push hm _ _, fun _ => rfl, rfl, ⟨rfl, rfl, rfl⟩, rfl⟩

/-! ## RET -/

/-- Settles O21: only the high word's low byte has bits below bit 4, so its high byte is discarded whole. -/
theorem retPopsHighThenLow : Obligations.RetPopsHighThenLow := by
  intro s
  have hhi : s.top.toNat = (s.mem.read8 s.sp).toNat + 256 * (s.mem.read8 (s.sp + 1)).toNat :=
    Memory.read16_toNat s.mem s.sp
  have hlo : s.drop.top.toNat = (s.mem.read8 (s.sp + 2)).toNat + 256 * (s.mem.read8 (s.sp + 3)).toNat := by
    rw [← show s.sp + 2 + 1 = s.sp + 3 from BitVec.add_assoc s.sp 2 1]
    exact Memory.read16_toNat s.mem (s.sp + 2)
  have hsp : s.sp + 4 = s.sp + 2 + 2 := (BitVec.add_assoc s.sp 2 2).symm
  refine ⟨s.drop.drop.setPc (retJoin s.top s.drop.top), rfl, ?_, ?_⟩
  · rw [State.setPc_pc, retJoin_toNat]
    omega
  · rw [hsp]
    rfl

/-- Below a pushed word lies what was on the stack before it. -/
theorem State.top_drop_push (hm : s.mem.wf = true) (v : Word) : (s.push v).drop.top = s.top := by
  unfold State.top Memory.read16
  rw [State.drop_push_sp, State.drop_mem, s.push_read8_of_ne hm v (by bv_omega) (by bv_omega),
    s.push_read8_of_ne hm v (by bv_omega) (by bv_omega)]

/-- The two words RET pops depend on the sp and the four bytes from it up only. -/
theorem State.top_and_drop_top_congr {t u : State} (hsp : u.sp = t.sp)
    (hbytes : ∀ k < 4, u.mem.read8 (t.sp + BitVec.ofNat 20 k) = t.mem.read8 (t.sp + BitVec.ofNat 20 k)) :
    u.top = t.top ∧ u.drop.top = t.drop.top := by
  have h0 : u.mem.read8 t.sp = t.mem.read8 t.sp := by simpa using hbytes 0 (by decide)
  have h1 : u.mem.read8 (t.sp + 1) = t.mem.read8 (t.sp + 1) := hbytes 1 (by decide)
  have h2 : u.mem.read8 (t.sp + 2) = t.mem.read8 (t.sp + 2) := hbytes 2 (by decide)
  have h3 : u.mem.read8 (t.sp + 2 + 1) = t.mem.read8 (t.sp + 2 + 1) := by
    rw [show t.sp + 2 + 1 = t.sp + BitVec.ofNat 20 3 from BitVec.add_assoc t.sp 2 1]
    exact hbytes 3 (by decide)
  unfold State.top Memory.read16
  rw [State.drop_mem, State.drop_mem, State.drop_sp, State.drop_sp, hsp, h0, h1, h2, h3]
  exact ⟨rfl, rfl⟩

/-- Settles O22: RET pops the two words CALL pushed, and they join to the return address. -/
theorem retUndoesCall : Obligations.RetUndoesCall := by
  intro s t u dst hm hcall hsp hbytes
  obtain rfl : ((s.push (retLow s.pc)).push (retHigh s.pc)).setPc (s.regAddr dst) = t :=
    Host.Outcome.next.inj hcall
  obtain ⟨htop, hnext⟩ := State.top_and_drop_top_congr hsp hbytes
  have hhigh : u.top = retHigh s.pc := htop.trans (State.top_push _ (s.push_wf hm _) _)
  have hlow : u.drop.top = retLow s.pc :=
    (hnext.trans (State.top_drop_push _ (s.push_wf hm _) _)).trans (s.top_push hm _)
  refine ⟨u.drop.drop.setPc (retJoin u.top u.drop.top), rfl, ?pc, ?sp⟩
  case pc => rw [State.setPc_pc, hhigh, hlow, retJoin_retHigh_retLow]
  case sp => simp [hsp]

end Sys2Proof.Machine
end

section
/-! PROOF. The console (44_console_io.md): what a scan finds, what a string output sends, how an input request is
answered, and what each leaves of the state. -/

namespace Sys2Proof.Machine

variable {s t : State} {i : Instr}

/-! ## The string output -/

/-- The scan finds the first 0x00, wherever it is: an earlier end would be a 0x00 before it, and a later one would have
passed it (R180). -/
theorem Memory.scanString_eq {m : Memory} {a : Addr} {n : Nat}
    (hne : ∀ k < n, m.read8 (a + BitVec.ofNat 20 k) ≠ 0) (hz : m.read8 (a + BitVec.ofNat 20 n) = 0) :
    m.scanString a =
      some ((List.range n).map fun k => m.read8 (a + BitVec.ofNat 20 k), a + BitVec.ofNat 20 n) := by
  obtain ⟨⟨bytes, last⟩, hscan⟩ := Option.isSome_iff_exists.mp ((m.scanString_isSome_iff a).mpr ⟨_, hz⟩)
  obtain ⟨rfl, hlast, hbytes, hread⟩ := Memory.scanFor_some hscan
  obtain rfl : bytes.length = n := by
    rcases Nat.lt_trichotomy bytes.length n with hlt | heq | hgt
    · exact absurd hlast (hne _ hlt)
    · exact heq
    · exact absurd ((hread n hgt).trans hz) (hbytes _ (List.getElem_mem hgt))
  have hlist : bytes = (List.range bytes.length).map fun k => m.read8 (a + BitVec.ofNat 20 k) :=
    List.ext_getElem (by simp) fun k hk _ => by simp [hread k hk]
  rw [hscan, ← hlist]

/-- A string output sends the bytes before the first 0x00, and goes on from that 0x00's address (R180). -/
theorem State.emitString_eq {a : Addr} {n : Nat} (k : Addr → State → State)
    (hne : ∀ j < n, s.mem.read8 (a + BitVec.ofNat 20 j) ≠ 0) (hz : s.mem.read8 (a + BitVec.ofNat 20 n) = 0) :
    s.emitString a k = .next (k (a + BitVec.ofNat 20 n)
      (s.conOut (.outStr ((List.range n).map fun j => s.mem.read8 (a + BitVec.ofNat 20 j))))) := by
  unfold State.emitString
  rw [Memory.scanString_eq hne hz]

/-- The pc past a string goes on to the next even address (R171, D16). -/
theorem pastString_ofNat (x : Nat) :
    pastString (BitVec.ofNat 20 x) =
      if (x + 1) % 2 = 0 then BitVec.ofNat 20 (x + 1) else BitVec.ofNat 20 (x + 2) := by
  have hnext (y : Nat) : BitVec.ofNat 20 y + 1 = BitVec.ofNat 20 (y + 1) := (BitVec.ofNat_add y 1).symm
  have hodd : (BitVec.ofNat 20 (x + 1)).getLsbD 0 = decide ((x + 1) % 2 = 1) := by
    rw [BitVec.getLsbD_ofNat, Nat.testBit_zero]
    rfl
  unfold pastString
  rw [hnext, hnext, hodd]
  rcases Nat.mod_two_eq_zero_or_one (x + 1) with hmod | hmod
  · simp [hmod]
  · simp [hmod]

/-- Settles O24: both emit the string at their start, and mode 0 then moves the pc past it. -/
theorem stringOutputEmitsUpToTheTerminator : Obligations.StringOutputEmitsUpToTheTerminator := by
  intro s src start n hne hz
  constructor
  · rintro rfl
    refine ⟨_, (exec_stdoutStr s).trans (State.emitString_eq _ hne hz), rfl, ?_, rfl⟩
    rw [State.setPc_pc, ← Addr.ofNat_toNat_add]
    exact pastString_ofNat (s.pc.toNat + n)
  · intro hstart
    obtain rfl : start = s.regAddr src := BitVec.eq_of_toNat_eq (hstart.trans (s.regAddr_toNat src).symm)
    exact ⟨_, (exec_stdoutPstr src s).trans (State.emitString_eq _ hne hz), rfl, rfl⟩

/-- A string output completes when memory holds a 0x00 anywhere (R180). -/
theorem State.emitString_completes (hz : ∃ x : Addr, s.mem.read8 x = 0) (a : Addr) (k : Addr → State → State) :
    ∃ t, s.emitString a k = .next t := by
  obtain ⟨x, hx⟩ := hz
  exact (s.emitString_completes_or_waits a k).resolve_right fun ⟨_, hne⟩ => hne x hx

/-- A string output never completes when memory holds no 0x00: a scan that ended would have found one (R180, D15). -/
theorem State.emitString_waits (hne : ∀ x : Addr, s.mem.read8 x ≠ 0) (a : Addr) (k : Addr → State → State) :
    s.emitString a k = .fault .scanNeverEnds := by
  obtain ⟨hwait, -⟩ | ⟨bytes, last, hscan, -⟩ := s.emitString_cases a k
  · exact hwait
  · obtain ⟨-, hlast, -⟩ := Memory.scanFor_some hscan
    exact absurd hlast (hne last)

/-- Settles O25: both are string outputs, which differ in where they start only. -/
theorem stringOutputWaitsForeverWithoutTerminator : Obligations.StringOutputWaitsForeverWithoutTerminator := by
  intro s src
  rw [exec_stdoutStr, exec_stdoutPstr]
  exact ⟨fun hz => ⟨State.emitString_completes hz _ _, State.emitString_completes hz _ _⟩,
    fun hne => ⟨State.emitString_waits hne _ _, State.emitString_waits hne _ _⟩⟩

/-! ## The register output -/

/-- The signed value of a word is its two's complement value (R10). -/
theorem signed16_eq_toInt (v : Word) : signed16 v = v.toInt := by
  rw [signed16, BitVec.toInt_eq_toNat_cond]
  split <;> split <;> omega

/-- Settles O26: the event carries the register's signed value, or its low byte. -/
theorem registerOutputEmitsIntegerOrCharacter : Obligations.RegisterOutputEmitsIntegerOrCharacter := by
  intro s src
  rw [← signed16_eq_toInt]
  exact ⟨rfl, lowByte (s.reg src), extract_low_toNat _, rfl⟩

/-! ## The reserved modes -/

theorem modeField_toNat (w : Word) : (modeField w).toNat = w.toNat / 512 % 8 := by
  simp [modeField, BitVec.extractLsb'_toNat, Nat.shiftRight_eq_div_pow]

/-- STDOUT 4 to 7 read their op and mode only (R175). -/
theorem decodeWord_stdoutRsvd {w : Word} (hop : opField w = 0xB) (hmode : 4 ≤ (modeField w).toNat) :
    decodeWord w = .stdoutRsvd (modeField w) :=
  decodeWord_of_readBits (decide_eq_true hmode) (encA_modeField hop rfl).symm

/-- Settles O12: the words with 10111 on top are those of op 0xB with a mode from 4, and their step is the fetch's
advance. -/
theorem reservedStdoutModesOnlyAdvanceThePc : Obligations.ReservedStdoutModesOnlyAdvanceThePc := by
  refine fun s mode => ⟨rfl, fun hrun htop => ?_⟩
  have hop : opField s.fetchWord = 0xB :=
    BitVec.eq_of_toNat_eq ((opField_toNat _).trans (show s.fetchWord.toNat / 4096 = 11 by omega))
  have hmode : 4 ≤ (modeField s.fetchWord).toNat := by
    rw [modeField_toNat]
    omega
  rw [step_running hrun, State.fetchInstr, decodeWord_stdoutRsvd hop hmode, ← State.advance_eq]
  rfl

/-! ## The console's answers -/

section Answers

variable {c : Console}

/-- The oldest answer held ready comes first (R182). -/
theorem Console.answer_of_ready {a : ConAnswer} {more : List ConAnswer} (hp : c.pending = a :: more) :
    c.answer = some (a, { c with pending := more }) := by
  simp [Console.answer, hp]

theorem Console.answer_of_oracle (hp : c.pending = []) (hr : c.rest = .oracle) :
    c.answer = some (Config.conOracle c.draws, { c with draws := c.draws + 1 }) := by
  simp [Console.answer, hp, hr]

theorem Console.answer_of_endOfInput (hp : c.pending = []) (hr : c.rest = .endOfInput) :
    c.answer = some ({ line := [], int := .malformed }, c) := by
  simp [Console.answer, hp, hr]

theorem Console.answer_of_silent (hp : c.pending = []) (hr : c.rest = .silent) : c.answer = none := by
  simp [Console.answer, hp, hr]

end Answers

/-- Settles O27, by the console's answer in each of its four states. -/
theorem consoleAnswersInOrderThenAsRestSays : Obligations.ConsoleAnswersInOrderThenAsRestSays :=
  fun _ _ _ => ⟨Console.answer_of_ready, Console.answer_of_oracle, Console.answer_of_endOfInput,
    Console.answer_of_silent⟩

/-- An answered request completes with the answer's effect (R182). -/
theorem State.onAnswer_of_some {ans : ConAnswer} {c : Console} (h : s.console.answer = some (ans, c))
    (k : ConAnswer → Console → State) : s.onAnswer k = .next (k ans c) := by
  unfold State.onAnswer
  rw [h]

/-- A request that is not answered waits (R182). -/
theorem State.onAnswer_of_none (h : s.console.answer = none) (k : ConAnswer → Console → State) :
    s.onAnswer k = .fault .stdinUnanswered := by
  unfold State.onAnswer
  rw [h]

/-! ## The line read -/

/-- Settles O28: the line and its terminator are one run of written bytes. -/
theorem lineInputWritesTheLineAndTerminator : Obligations.LineInputWritesTheLineAndTerminator := by
  intro s src ans c hm hans
  have hexec : exec (.stdinLine src) s = .next (s.lineRead src ans.line c) :=
    (execStdinLine_eq_onAnswer s src).trans (State.onAnswer_of_some hans _)
  have hlen : (ans.line ++ [(0 : Byte)]).length = ans.line.length + 1 := List.length_append
  refine ⟨_, hexec, fun k hk hlast => ?_, ?_, rfl, fun _ => rfl, rfl, rfl, rfl, rfl, rfl, rfl⟩
  · exact Memory.read8_writeBytes_inside hm _ _ k hk fun j hkj hj => hlast j hkj (by omega)
  · rw [← hlen]
    exact sameMemoryOutside_of_writeBytes hm rfl

/-! ## The numeric read -/

/-- STDIN 1 to 7 are one numeric read (R178, D12). -/
theorem exec_numericRead {mode : BitVec 3} {src : RegIx} (s : State)
    (h : i ∈ [Instr.stdinInt src, .stdinIntAlt23 mode src, .stdinIntAlt47 mode src]) :
    exec i s = s.readInt src := by
  simp only [List.mem_cons, List.not_mem_nil, or_false] at h
  obtain rfl | rfl | rfl := h <;> rfl

/-- An integer mod 2^16 is never negative (R10, R178). -/
theorem truncate16_toNat (n : Int) : ((truncate16 n).toNat : Int) = n % 65536 := by
  rw [truncate16, BitVec.toNat_ofInt]
  exact Int.toNat_of_nonneg (Int.emod_nonneg n (by decide))

theorem State.reg_numberRead_self (s : State) (src : RegIx) (ans : IntAnswer) (c : Console) :
    (s.numberRead src ans c).reg src = ans.reg (s.reg src) :=
  (s.reg_numberRead ..).trans (if_pos rfl)

/-- Settles O29: the register and the flags take what the answer makes of them, and the rest stays. -/
theorem integerInputStoresModuloOrNothing : Obligations.IntegerInputStoresModuloOrNothing := by
  intro s i mode src ans c hi hans
  have hexec : exec i s = .next (s.numberRead src ans.int c) := by
    rw [exec_numericRead s hi, State.readInt_eq_onAnswer, State.onAnswer_of_some hans]
  refine ⟨_, hexec, ?int, ?malformed, fun _ hr => (s.reg_numberRead ..).trans (if_neg hr), rfl, rfl, rfl,
    ⟨rfl, rfl, rfl⟩, fun _ => rfl⟩
  case int =>
    intro n hn
    rw [State.reg_numberRead_self, hn]
    exact ⟨truncate16_toNat n, zeroSignOf_zs (truncate16 n) s.flags⟩
  case malformed =>
    intro hmalformed
    rw [State.reg_numberRead_self, hmalformed]
    exact ⟨rfl, rfl⟩

/-! ## Waiting for an answer -/

/-- Every STDIN is a request whose effect takes no further answer from the console (R182). -/
theorem exec_stdin_eq_onAnswer {mode : BitVec 3} {src : RegIx} (s : State)
    (h : i ∈ [Instr.stdinLine src, .stdinInt src, .stdinIntAlt23 mode src, .stdinIntAlt47 mode src]) :
    ∃ k, exec i s = s.onAnswer k ∧ ∀ ans c, (k ans c).console.pending = c.pending := by
  obtain rfl | hnumeric := List.mem_cons.mp h
  · exact ⟨_, execStdinLine_eq_onAnswer s src, fun _ _ => rfl⟩
  · exact ⟨_, (exec_numericRead s hnumeric).trans (s.readInt_eq_onAnswer src), fun _ _ => rfl⟩

/-- Settles O30: a silent console gives no answer, and one answer more is the one it gives. -/
theorem inputWaitsUntilTheConsoleAnswers : Obligations.InputWaitsUntilTheConsoleAnswers := by
  intro s i mode src ans hi hp hr
  constructor
  · obtain ⟨k, hexec, -⟩ := exec_stdin_eq_onAnswer s hi
    rw [hexec, State.onAnswer_of_none (Console.answer_of_silent hp hr)]
  · obtain ⟨k, hexec, hpending⟩ := exec_stdin_eq_onAnswer (s.consoleProvide ans) hi
    have hready : (s.consoleProvide ans).console.pending = [ans] := congrArg (· ++ [ans]) hp
    exact ⟨_, hexec.trans (State.onAnswer_of_some (Console.answer_of_ready hready) k), hpending _ _⟩

end Sys2Proof.Machine

/-! ## The history -/

namespace Sys2Proof

/-- The instructions that send an event or a request at the console port: STDOUT 0 to 3 and every STDIN (R181, R182). -/
def Instr.usesConsole : Instr → Bool
  | .stdoutStr | .stdoutInt _ | .stdoutPstr _ | .stdoutChr _ => true
  | .stdinLine _ | .stdinInt _ | .stdinIntAlt23 _ _ | .stdinIntAlt47 _ _ => true
  | .mov _ _ | .movi _ _ | .cmp _ _ | .load _ _ | .store _ _ | .add _ _ | .sub _ _ | .and _ _ | .or _ _ => false
  | .xor _ _ | .halt | .nop | .jmp _ | .jz _ | .jnz _ | .push _ | .pop _ | .call _ | .ret => false
  | .stdoutRsvd _ | .illegal _ => false

theorem Instr.usesConsole_iff (i : Instr) :
    i.usesConsole = true ↔ ∃ m r, i ∈ [Instr.stdoutStr, .stdoutInt r, .stdoutPstr r, .stdoutChr r, .stdinLine r,
      .stdinInt r, .stdinIntAlt23 m r, .stdinIntAlt47 m r] := by
  cases i <;> simp [Instr.usesConsole]

end Sys2Proof

namespace Sys2Proof.Machine

variable {s t : State} {i : Instr}

theorem exec_log_append (h : exec i s = .next t) (hi : i.usesConsole = true) :
    ∃ e, t.console.log = s.console.log ++ [e] := by
  cases completes_of_exec h with
  | stdoutStr | stdoutPstr | stdoutInt | stdoutChr | stdinLine | stdinInt | stdinIntAlt23 | stdinIntAlt47 =>
    exact ⟨_, rfl⟩
  | _ => cases hi

theorem exec_log_eq (h : exec i s = .next t) (hi : i.usesConsole = false) : t.console.log = s.console.log := by
  cases completes_of_exec h with
  | stdoutStr | stdoutPstr | stdoutInt | stdoutChr | stdinLine | stdinInt | stdinIntAlt23 | stdinIntAlt47 =>
    cases hi
  | _ => rfl

/-- Settles O53: one entry at the end for the instructions that use the console, none for the others. -/
theorem historyGrowsByOneEventAtThePort : Obligations.HistoryGrowsByOneEventAtThePort := by
  intro i s t h
  rw [← i.usesConsole_iff]
  cases hi : i.usesConsole with
  | true =>
    obtain ⟨e, hlog⟩ := exec_log_append h hi
    exact ⟨[e], hlog, Nat.le_refl 1, iff_of_true rfl rfl⟩
  | false =>
    have hlog : t.console.log = s.console.log ++ [] := (exec_log_eq h hi).trans (List.append_nil _).symm
    exact ⟨[], hlog, Nat.zero_le 1, iff_of_false Nat.zero_ne_one Bool.false_ne_true⟩

end Sys2Proof.Machine
end

section
/-! PROOF. LOAD and STORE (45_extended.md): the word at a register's address, which has no 16-bit wrap, and op 0xD,
whose eight codes leave no word for the halt of an unassigned one. -/

namespace Sys2Proof

/-! ## The words of op 0xD -/

/-- Every ext code is one of the eight operations (R92, C4). -/
theorem decodeExt_mem (w : Word) :
    decodeExt w ∈ [Instr.ret, .load (reg1Field w) (reg2Field w), .store (reg1Field w) (reg2Field w),
      .add (reg1Field w) (reg2Field w), .sub (reg1Field w) (reg2Field w), .and (reg1Field w) (reg2Field w),
      .or (reg1Field w) (reg2Field w), .xor (reg1Field w) (reg2Field w)] := by
  unfold decodeExt
  split <;> simp only [List.mem_cons, true_or, or_true]

/-- The op 0xD goes to the extended dispatch (R86, R190). -/
theorem decodeWord_of_op_ext {w : Word} (hop : opField w = 0xD) : decodeWord w = decodeExt w := by
  have hbit {k : Nat} (hk : k < 4) : w.getLsbD (12 + k) = (0xD : BitVec 4).getLsbD k := by
    rw [← hop, opField, BitVec.getLsbD_extractLsb', decide_eq_true hk, Bool.true_and]
  have h15 : w.getLsbD 15 = true := hbit (k := 3) (by decide)
  have h14 : w.getLsbD 14 = true := hbit (k := 2) (by decide)
  have h13 : w.getLsbD 13 = false := hbit (k := 1) (by decide)
  have h12 : w.getLsbD 12 = true := hbit (k := 0) (by decide)
  rw [decodeWord, h15, h14, h13, h12]

end Sys2Proof

namespace Sys2Proof.Machine

variable (s : State)

/-! ## The word at a register's address -/

/-- A register's value is its address (R11, R28). -/
theorem State.ofNat_reg (r : RegIx) : BitVec.ofNat 20 (s.reg r).toNat = s.regAddr r := BitVec.ofNat_toNat ..

/-- The address after a register's does not wrap at 16 bits (R192). -/
theorem State.ofNat_reg_add_one (r : RegIx) : BitVec.ofNat 20 ((s.reg r).toNat + 1) = s.regAddr r + 1 := by
  rw [BitVec.ofNat_add, s.ofNat_reg]
  rfl

/-- A word write puts the low byte at its address (R57). -/
theorem Memory.write16_low_toNat {m : Memory} (hm : m.wf = true) (a : Addr) (v : Word) :
    ((m.write16 a v).read8 a).toNat = v.toNat % 256 := by
  rw [Memory.read8_write16 hm, if_neg (Addr.ne_add_one a), if_pos rfl, extract_low_toNat]

/-- A word write puts the high byte at the next address (R57, R59). -/
theorem Memory.write16_high_toNat {m : Memory} (hm : m.wf = true) (a : Addr) (v : Word) :
    ((m.write16 a v).read8 (a + 1)).toNat = v.toNat / 256 := by
  rw [Memory.read8_write16 hm, if_pos rfl, extract_high_toNat]

/-! ## LOAD and STORE -/

/-- Settles O31: LOAD stores the word at reg2's address as a result. -/
theorem loadReadsTheWordAtTheAddress : Obligations.LoadReadsTheWordAtTheAddress := by
  intro s reg1 reg2
  obtain ⟨hreg, hflags, hframe⟩ := s.writeResult_effect reg1 (s.mem.read16 (s.regAddr reg2))
  refine ⟨_, rfl, ?_⟩
  rw [hreg, s.ofNat_reg, s.ofNat_reg_add_one]
  exact ⟨Memory.read16_toNat s.mem (s.regAddr reg2), hflags, hframe⟩

/-- Settles O32: STORE is one word write at reg1's address. -/
theorem storeWritesTheWordAtTheAddress : Obligations.StoreWritesTheWordAtTheAddress := by
  intro s reg1 reg2 hm
  refine ⟨_, rfl, ?_⟩
  rw [s.ofNat_reg, s.ofNat_reg_add_one]
  exact ⟨Memory.write16_low_toNat hm _ _, Memory.write16_high_toNat hm _ _, sameMemoryOutside_of_write16 hm rfl,
    fun _ => rfl, rfl, rfl, rfl, ⟨rfl, rfl, rfl⟩, rfl⟩

/-! ## The halt of an unassigned extended opcode -/

/-- Settles O37: the halt records the ext code in its op, and op 0xD is the extended dispatch. -/
theorem unassignedExtHaltIsDead : Obligations.UnassignedExtHaltIsDead := by
  refine ⟨fun s ext addr hpc => ?_, fun w hw => ?_⟩
  · exact ⟨ext.setWidth 4, BitVec.toNat_setWidth_of_le (by decide), s.raiseHalt_eq hpc .illegalExt _⟩
  · have hop : opField w = 0xD := BitVec.eq_of_toNat_eq ((opField_toNat w).trans hw)
    rw [decodeWord_of_op_ext hop]
    exact ⟨_, _, decodeExt_mem w⟩

end Sys2Proof.Machine
end
